-- ==== Sys2Proof/Word.lean ====
section
/-! DEFINITION. The word types of the machine and the plainest arithmetic on them
(spec/00_scope.md R9, spec/10_state.md R20 to R26). -/

namespace Sys2Proof

/-- A byte: a general register, a timer, a memory cell (R20, R27, R28, R36). -/
abbrev Byte := BitVec 8

/-- A 16-bit value: an instruction word, PC, I, a stack entry (R22, R23, R25, R71). -/
abbrev Word := BitVec 16

/-- The number of a general register, 0 to 15: the fields `x` and `y` of an instruction (R20, R72). -/
abbrev Reg := Fin 16

/-- The 12-bit address immediate `nnn` (R72). -/
abbrev Addr12 := BitVec 12

/-- VF, the register that doubles as the flag (R21). -/
abbrev VF : Reg := 15

/-- The word whose high byte is `hi` and whose low byte is `lo` (R54: `hi ++ lo`). -/
abbrev Word.ofBytes (hi lo : Byte) : Word := hi ++ lo

/-- Bits 15 to 8 of a word. -/
abbrev Word.hiByte (w : Word) : Byte := w.extractLsb' 8 8

/-- Bits 7 to 0 of a word. -/
abbrev Word.loByte (w : Word) : Byte := w.extractLsb' 0 8

end Sys2Proof
end

