-- ==== Sys2Proof/Config.lean ====
section
/-! DEFINITION. What is fixed for the machine (spec/00_scope.md R7), the open parameters with the spec's
defaults (R8), the events of the agents, and the free values. -/

namespace Sys2Proof

/-- `MEM_SIZE` (R7): addresses 0x000 to 0xFFF exist. -/
def Config.memSize : Nat := 4096

/-- `PC_RESET` and `ROM_BASE` (R7): the entry point and the load address. -/
def Config.romBase : Nat := 0x200

/-- `ROM_MAX` (R7): the longest ROM image. -/
def Config.romMax : Nat := Config.memSize - Config.romBase

/-- The states of the random byte generator (R8 `RngState`, an open type), numbered.
DESIGN CHOICE, safe (log 7): the numbering stands for any type whose states can be listed. -/
abbrev Config.RngState := Nat

/-- The configuration of one machine, fixed for a run and changed by no step (R8, spec/10_state.md R37). -/
structure Config where
  /-- `FONT` (R8, D16): the 80 bytes at 0x000 to 0x04F, glyph d at `5 * d` (R53). Any 80 bytes. -/
  font : Vector Byte 80
  /-- `rng_seed` (R8, R161): the generator state that reset sets. Any state. -/
  rngSeed : Config.RngState
  /-- `rng_next` (R8, R161) as far as it is supplied: row `r` is the next state and the byte of generator state `r`. What
  the table does not reach is free (`Config.rngNext`). -/
  rngTable : List (Config.RngState × Byte)
  deriving DecidableEq, Repr

/-- The glyph bytes of R53, the default for `FONT`. PRESUMED, unsafe (log 6): R53 itself takes them from general knowledge
(G1). -/
def Config.customaryGlyphs : List Byte :=
  [0xF0, 0x90, 0x90, 0x90, 0xF0] ++ [0x20, 0x60, 0x20, 0x20, 0x70] ++
  [0xF0, 0x10, 0xF0, 0x80, 0xF0] ++ [0xF0, 0x10, 0xF0, 0x10, 0xF0] ++
  [0x90, 0x90, 0xF0, 0x10, 0x10] ++ [0xF0, 0x80, 0xF0, 0x10, 0xF0] ++
  [0xF0, 0x80, 0xF0, 0x90, 0xF0] ++ [0xF0, 0x10, 0x20, 0x40, 0x40] ++
  [0xF0, 0x90, 0xF0, 0x90, 0xF0] ++ [0xF0, 0x90, 0xF0, 0x10, 0xF0] ++
  [0xF0, 0x90, 0xF0, 0x90, 0x90] ++ [0xE0, 0x90, 0xE0, 0x90, 0xE0] ++
  [0xF0, 0x80, 0x80, 0x80, 0xF0] ++ [0xE0, 0x90, 0x90, 0x90, 0xE0] ++
  [0xF0, 0x80, 0xF0, 0x80, 0xF0] ++ [0xF0, 0x80, 0xF0, 0x80, 0x80]

/-- The machine with the default font (R8, R53). R8 has no default for the generator, which is left open: nothing is
supplied of `rng_next`, and so the seed 0 says nothing of a byte (log 7). -/
def Config.default : Config := { font := ⟨Config.customaryGlyphs.toArray, rfl⟩, rngSeed := 0, rngTable := [] }

/-- What a byte of memory reads as after reset, and so what an address that `mem` does not list reads as:
the font below 0x050, zero above (R40, R51: "memory zero-filled except font table"). -/
def Config.resetByte (cfg : Config) (a : Nat) : Byte := if h : a < 80 then cfg.font[a] else 0

/-- FREE VALUE (R161, R162: no algorithm, "each draw is some byte 0 to 255"): `rng_next` where the configuration does not
supply it. It has no body, so it may be any function. -/
opaque Config.freeRngNext : Config.RngState → Config.RngState × Byte

/-- `rng_next` (R8, R161): one draw gives the next generator state and one byte (log 7). -/
def Config.rngNext (cfg : Config) (r : Config.RngState) : Config.RngState × Byte :=
  (cfg.rngTable[r]?).getD (Config.freeRngNext r)

/-- The deterministic source of R162, "a list of bytes consumed in order", as a table for `rngTable`, read from seed 0. -/
def Config.byteSource (bytes : List Byte) : List (Config.RngState × Byte) := bytes.mapIdx (fun k b => (k + 1, b))

/-- One atomic step of an agent (R12, R38, R176). -/
inductive Event where
  /-- `cpu_cycle`, with or without a `step_req` (R187). -/
  | cpuCycle (stepReq : Bool)
  /-- `timer_tick` (R180). -/
  | timerTick
  /-- The level of one key changes (R153). -/
  | setKey (k : Reg) (down : Bool)
  /-- The `paused` level changes (R189). -/
  | setPaused (level : Bool)
  /-- `render_ack` (R143). -/
  | renderAck
  /-- The Redraw message, which reaches only the renderer (R190). -/
  | redraw
  /-- `rom_load` (R66, R202). -/
  | romLoad (image : List Byte)
  /-- `reset` (R200). -/
  | reset
  /-- Shutdown: no event comes after it (R188). -/
  | shutdown
  deriving DecidableEq, Repr, Inhabited

/-- FREE VALUE (R62, R177, R210: no rule fixes the order of the agents' steps): the n-th event that no list gives. It has
no body, so it may be any endless interleaving of cycles, ticks and the rest (log 2). -/
opaque Config.freeEvent : Nat → Event

end Sys2Proof
end

