-- ==== Sys2Proof/Decode.lean ====
section
/-! DEFINITION. The decoder, total on any bytes and rejecting by name (spec/30_encoding.md R70 to R83), and after it the
encoder, written from the encoding column of spec/opcode_table.json. -/

namespace Sys2Proof

/-- Why bytes are no instruction. -/
inductive DecodeError where
  /-- Fewer than the 2 bytes of an instruction (R71). -/
  | truncated
  /-- The word matches no pattern of R76 (R78). -/
  | illegalOpcode (w : Word)
  deriving DecidableEq, Repr

/-- `op = w[15:12]` (R9, R72). -/
def Word.op (w : Word) : BitVec 4 := w.extractLsb' 12 4

/-- `x = w[11:8]`, as a register number (R72). -/
def Word.fieldX (w : Word) : Reg := (w.extractLsb' 8 4).toFin

/-- `y = w[7:4]`, as a register number (R72). -/
def Word.fieldY (w : Word) : Reg := (w.extractLsb' 4 4).toFin

/-- `n = w[3:0]` (R72). -/
def Word.fieldN (w : Word) : BitVec 4 := w.extractLsb' 0 4

/-- `kk = w[7:0]` (R72). -/
def Word.fieldKK (w : Word) : Byte := w.extractLsb' 0 8

/-- `nnn = w[11:0]` (R72). -/
def Word.fieldNNN (w : Word) : Addr12 := w.extractLsb' 0 12

/-- Group 0: the whole low 12 bits are the sub-opcode (R72, R78). -/
def decodeGroup0 (w : Word) : Except DecodeError Instr :=
  match w.fieldNNN with
  | 0x0E0#12 => .ok .cls
  | 0x0EE#12 => .ok .ret
  | _ => .error (.illegalOpcode w)

/-- Group 8: the low nibble is the sub-opcode (R76). -/
def decodeGroup8 (w : Word) : Except DecodeError Instr :=
  match w.fieldN with
  | 0x0#4 => .ok (.ldReg w.fieldX w.fieldY)
  | 0x1#4 => .ok (.orReg w.fieldX w.fieldY)
  | 0x2#4 => .ok (.andReg w.fieldX w.fieldY)
  | 0x3#4 => .ok (.xorReg w.fieldX w.fieldY)
  | 0x4#4 => .ok (.addReg w.fieldX w.fieldY)
  | 0x5#4 => .ok (.subReg w.fieldX w.fieldY)
  | 0x6#4 => .ok (.shr w.fieldX w.fieldY)
  | 0x7#4 => .ok (.subnReg w.fieldX w.fieldY)
  | 0xE#4 => .ok (.shl w.fieldX w.fieldY)
  | _ => .error (.illegalOpcode w)

/-- Group E: the low byte is the sub-opcode (R76). -/
def decodeGroupE (w : Word) : Except DecodeError Instr :=
  match w.fieldKK with
  | 0x9E#8 => .ok (.skp w.fieldX)
  | 0xA1#8 => .ok (.sknp w.fieldX)
  | _ => .error (.illegalOpcode w)

/-- Group F: the low byte is the sub-opcode (R76). -/
def decodeGroupF (w : Word) : Except DecodeError Instr :=
  match w.fieldKK with
  | 0x07#8 => .ok (.ldVxDT w.fieldX)
  | 0x0A#8 => .ok (.ldVxK w.fieldX)
  | 0x15#8 => .ok (.ldDTVx w.fieldX)
  | 0x18#8 => .ok (.ldSTVx w.fieldX)
  | 0x1E#8 => .ok (.addI w.fieldX)
  | 0x29#8 => .ok (.ldF w.fieldX)
  | 0x33#8 => .ok (.ldB w.fieldX)
  | 0x55#8 => .ok (.storeRegs w.fieldX)
  | 0x65#8 => .ok (.loadRegs w.fieldX)
  | _ => .error (.illegalOpcode w)

/-- Decoding one word: an exact match of every literal digit (R75), total (R83). -/
def decodeWord (w : Word) : Except DecodeError Instr :=
  match w.op with
  | 0x0#4 => decodeGroup0 w
  | 0x1#4 => .ok (.jp w.fieldNNN)
  | 0x2#4 => .ok (.call w.fieldNNN)
  | 0x3#4 => .ok (.seImm w.fieldX w.fieldKK)
  | 0x4#4 => .ok (.sneImm w.fieldX w.fieldKK)
  | 0x5#4 => if w.fieldN = 0 then .ok (.seReg w.fieldX w.fieldY) else .error (.illegalOpcode w)
  | 0x6#4 => .ok (.ldImm w.fieldX w.fieldKK)
  | 0x7#4 => .ok (.addImm w.fieldX w.fieldKK)
  | 0x8#4 => decodeGroup8 w
  | 0x9#4 => if w.fieldN = 0 then .ok (.sneReg w.fieldX w.fieldY) else .error (.illegalOpcode w)
  | 0xA#4 => .ok (.ldI w.fieldNNN)
  | 0xB#4 => .ok (.jpV0 w.fieldNNN)
  | 0xC#4 => .ok (.rnd w.fieldX w.fieldKK)
  | 0xD#4 => .ok (.drw w.fieldX w.fieldY w.fieldN.toNat)
  | 0xE#4 => decodeGroupE w
  | _ => decodeGroupF w                  -- the one value left, 0xF

/-- Decoding a byte stream: the first byte is the high byte of the word (R54, R71). The rest of the bytes is
given back. -/
def decode : List Byte → Except DecodeError (Instr × List Byte)
  | hi :: lo :: rest =>
    match decodeWord (Word.ofBytes hi lo) with
    | .ok i => .ok (i, rest)
    | .error e => .error e
  | [_] => .error .truncated
  | [] => .error .truncated

/-- The instruction the decoder reads from a word numbered as spec/opcode_table.json numbers it: one 16-bit word,
stored high byte first. -/
def decodeTableWord (nbits w : Nat) : Option Instr :=
  let word : Word := BitVec.ofNat 16 (w % 2 ^ nbits)
  match decode [word.hiByte, word.loByte] with
  | .ok (i, _) => some i
  | .error _ => none

/-- A register number as the 4 bits of a field. -/
def Reg.bits (x : Reg) : BitVec 4 := BitVec.ofFin x

/-- Format I of R73: group, x, kk. -/
def encodeI (op : BitVec 4) (x : Reg) (kk : Byte) : Word := op ++ Reg.bits x ++ kk

/-- Format R and format D of R73: group, x, y, low nibble. -/
def encodeR (op : BitVec 4) (x y : Reg) (n : BitVec 4) : Word := op ++ Reg.bits x ++ Reg.bits y ++ n

/-- The word of an instruction (the encoding column of spec/opcode_table.json). -/
def encodeWord : Instr → Word
  | .cls => 0x00E0#16
  | .ret => 0x00EE#16
  | .jp nnn => 0x1#4 ++ nnn
  | .call nnn => 0x2#4 ++ nnn
  | .seImm x kk => encodeI 0x3 x kk
  | .sneImm x kk => encodeI 0x4 x kk
  | .seReg x y => encodeR 0x5 x y 0x0
  | .ldImm x kk => encodeI 0x6 x kk
  | .addImm x kk => encodeI 0x7 x kk
  | .ldReg x y => encodeR 0x8 x y 0x0
  | .orReg x y => encodeR 0x8 x y 0x1
  | .andReg x y => encodeR 0x8 x y 0x2
  | .xorReg x y => encodeR 0x8 x y 0x3
  | .addReg x y => encodeR 0x8 x y 0x4
  | .subReg x y => encodeR 0x8 x y 0x5
  | .shr x y => encodeR 0x8 x y 0x6
  | .subnReg x y => encodeR 0x8 x y 0x7
  | .shl x y => encodeR 0x8 x y 0xE
  | .sneReg x y => encodeR 0x9 x y 0x0
  | .ldI nnn => 0xA#4 ++ nnn
  | .jpV0 nnn => 0xB#4 ++ nnn
  | .rnd x kk => encodeI 0xC x kk
  | .drw x y n => encodeR 0xD x y (BitVec.ofNat 4 n)
  | .skp x => encodeI 0xE x 0x9E
  | .sknp x => encodeI 0xE x 0xA1
  | .ldVxDT x => encodeI 0xF x 0x07
  | .ldVxK x => encodeI 0xF x 0x0A
  | .ldDTVx x => encodeI 0xF x 0x15
  | .ldSTVx x => encodeI 0xF x 0x18
  | .addI x => encodeI 0xF x 0x1E
  | .ldF x => encodeI 0xF x 0x29
  | .ldB x => encodeI 0xF x 0x33
  | .storeRegs x => encodeI 0xF x 0x55
  | .loadRegs x => encodeI 0xF x 0x65

/-- The bytes of an instruction as memory holds them: high byte at the lower address (R54). -/
def encode (i : Instr) : List Byte := [(encodeWord i).hiByte, (encodeWord i).loByte]

end Sys2Proof
end

