-- ==== Sys2Proof/Machine/State.lean ====
section
/-! DEFINITION. Everything the spec gives the machine, as plain data (spec/10_state.md R20 to R42), the events of the
other agents (spec/60_exceptions.md R176), and the state after reset (R40). -/

namespace Sys2Proof.Machine

open Sys2Proof

/-- Why the model stops where the spec describes no machine at all. No instruction raises one: every fault of an
instruction is the halt of R172, which is a next state. -/
inductive Fault where
  /-- Raised by the `rom_load` event for an image longer than 3584 bytes: "a load error (fatal)" before any execution
  (R66, R170 class 1, R203). Safe: such a run does not exist (log 9). -/
  | fatalLoadError
  deriving DecidableEq, Repr

/-- What the model does not accept. -/
inductive Refusal where
  /-- An instruction without a meaning; raised by no arm of this model. Safe. -/
  | notModelled (mnemonic : String)
  /-- Raised by the `rom_load` event after the first `cpu_cycle`: "not a move the host has" (R202, U28). Safe (log 9). -/
  | romLoadAfterFirstCycle
  deriving DecidableEq, Repr

/-- `halt_cause` (R34, R171). Code 7 is never produced, so it is left out (U31). -/
inductive HaltCause where
  | none
  | illegalOpcode
  | stackOverflow
  | stackUnderflow
  | memoryRange
  | fetchRange
  | keyIndex
  deriving DecidableEq, Repr

/-- MODEL'S OWN: which events come once no event is listed (log 2). -/
inductive Rest where
  /-- Instruction cycles without a step request, for ever. -/
  | cycles
  /-- Events the environment chooses freely, of which `drawn` have come. -/
  | free (drawn : Nat)
  deriving DecidableEq, Repr

/-- Memory: the addresses whose byte differs from what reset left there, strictly rising (log 20). -/
abbrev Memory := List Host.Cell

/-- One row of the display: column 0 is the most significant bit (R30; log 21). -/
abbrev Row := BitVec 64

/-- The display buffer, 32 rows, row 0 at the top (R30). -/
abbrev Frame := Vector Row 32

/-- The machine. The last three fields are the model's own. -/
structure State where
  /-- V0 to VF (R20, R21). -/
  v : Vector Byte 16
  /-- The index register I (R22). -/
  i : Word
  /-- The program counter (R23). -/
  pc : Word
  /-- The call stack (R25). -/
  stack : Vector Word 16
  /-- SP, the number of stack entries in use, 0 to 16 (R26; log 19). -/
  sp : Fin 17
  /-- The delay timer (R27). -/
  dt : Byte
  /-- The sound timer (R28). -/
  st : Byte
  /-- The display buffer (R30). -/
  fb : Frame
  /-- A redraw is pending (R31). -/
  dirty : Bool
  /-- The 16 key levels, inputs (R32). -/
  key : Vector Bool 16
  /-- The pause level, an input (R35). -/
  paused : Bool
  /-- The random byte generator (R33). -/
  rng : Config.RngState
  /-- A fault has halted the machine (R34). -/
  halted : Bool
  /-- Which fault (R34). -/
  haltCause : HaltCause
  /-- Memory (R36). -/
  mem : Memory
  /-- The configuration, which no step changes (R8, R37). -/
  config : Config
  /-- MODEL'S OWN: `rom_load` is still legal, no `cpu_cycle` has come since reset (R38, R66; log 8). -/
  romOpen : Bool
  /-- MODEL'S OWN: the events still to come, oldest first (log 2). -/
  events : List Event
  /-- MODEL'S OWN: what comes when none is listed (log 2). -/
  rest : Rest
  deriving DecidableEq, Repr

/-- The state after `reset` of a machine with configuration `cfg` (R40, R201). PC and memory are stated by the source; the zeros are the spec's decision D2
(DESIGN CHOICE, unsafe, log 5); `key` and `paused` are inputs (DESIGN CHOICE, unsafe, log 4); the events are left to the environment (log 2). -/
def State.resetOf (cfg : Config) : State where
  v := Vector.replicate 16 0
  i := 0
  pc := 0x200
  stack := Vector.replicate 16 0
  sp := 0
  dt := 0
  st := 0
  fb := Vector.replicate 32 0
  dirty := false
  key := Vector.replicate 16 false
  paused := false
  rng := cfg.rngSeed
  halted := false
  haltCause := .none
  mem := []
  config := cfg
  romOpen := true
  events := []
  rest := .free 0

/-- The state after `reset` of the machine with the default configuration (R8, R53; log 6). -/
def State.reset : State := State.resetOf Config.default

/-- The outcome of a meaning or of a step. -/
abbrev Result := Host.Outcome State Fault Refusal

end Sys2Proof.Machine
end

