-- ==== Sys2Proof/Machine/Ops.lean ====
section
/-! DEFINITION. The named operations over memory, registers, the stack, the program counter and the generator, and the
one exceptional event of the machine, `raise` (spec/60_exceptions.md R172). -/

namespace Sys2Proof.Machine

open Sys2Proof

/-! ## Memory (spec/20_memory.md) -/

/-- The canonical form from address `lo` up: addresses strictly rising, all of them existing (R50), no byte listed that
reset left there. -/
def Memory.wfFrom (cfg : Config) (lo : Nat) : Memory → Bool
  | [] => true
  | (k, c) :: m => decide (lo ≤ k) && decide (k < Config.memSize) && c != cfg.resetByte k && Memory.wfFrom cfg (k + 1) m

/-- The canonical form: equal memories are equal lists. -/
def Memory.wf (cfg : Config) (m : Memory) : Bool := Memory.wfFrom cfg 0 m

/-- Reading one byte: the byte last written there, or what reset left (R60). -/
def Memory.read (cfg : Config) : Memory → Nat → Byte
  | [], a => cfg.resetByte a
  | (k, c) :: m, a => if a = k then c else Memory.read cfg m a

/-- Writing one byte, keeping the canonical form. -/
def Memory.write (cfg : Config) : Memory → Nat → Byte → Memory
  | [], a, b => if b = cfg.resetByte a then [] else [(a, b)]
  | (k, c) :: m, a, b =>
    if a < k then (if b = cfg.resetByte a then (k, c) :: m else (a, b) :: (k, c) :: m)
    else if a = k then (if b = cfg.resetByte a then m else (a, b) :: m)
    else (k, c) :: Memory.write cfg m a b

/-- Writing single bytes at ascending addresses (R54, R55). -/
def Memory.writeBytes (cfg : Config) : Memory → Nat → List Byte → Memory
  | m, _, [] => m
  | m, a, b :: bs => Memory.writeBytes cfg (m.write cfg a b) (a + 1) bs

/-- Reading `n` single bytes at ascending addresses (R54, R55). -/
def Memory.readBytes (cfg : Config) (m : Memory) (a : Nat) : Nat → List Byte
  | 0 => []
  | n + 1 => m.read cfg a :: Memory.readBytes cfg m (a + 1) n

/-- `mem[a]`. -/
def State.readByte (s : State) (a : Nat) : Byte := s.mem.read s.config a

/-- The bytes `mem[a .. a+n-1]`. -/
def State.readBytes (s : State) (a n : Nat) : List Byte := s.mem.readBytes s.config a n

/-- `mem[a .. ] <- bytes`. -/
def State.storeBytes (s : State) (a : Nat) (bytes : List Byte) : State := { s with mem := s.mem.writeBytes s.config a bytes }

/-! ## Registers -/

/-- `V[x]`. -/
def State.getV (s : State) (x : Reg) : Byte := s.v[x]

/-- `V[x] <- b`. -/
def State.setV (s : State) (x : Reg) (b : Byte) : State := { s with v := s.v.set x b }

/-- `I <- w`. -/
def State.setI (s : State) (w : Word) : State := { s with i := w }

/-! ## The program counter (R24) -/

/-- `PC <- target`. -/
def State.jumpTo (s : State) (target : Word) : State := { s with pc := target }

/-- `PC <- PC + 2`, modulo 2^16 (R70). -/
def State.advance (s : State) : State := s.jumpTo (s.pc + 2)

/-- `if c then PC <- PC + 4 else PC <- PC + 2` (R100). -/
def State.skipIf (s : State) (c : Bool) : State := s.jumpTo (if c then s.pc + 4 else s.pc + 2)

/-! ## The halt (R170 to R178) -/

/-- The code of a cause (R171). -/
def HaltCause.code : HaltCause → BitVec 3
  | .none => 0
  | .illegalOpcode => 1
  | .stackOverflow => 2
  | .stackUnderflow => 3
  | .memoryRange => 4
  | .fetchRange => 5
  | .keyIndex => 6

/-- `raise <Fault>`, the machine's one exception: the cycle ends with `halted` and `halt_cause` written and nothing else
changed, not even PC (R172). There is no handler and no return from it (R178); the only way out is the reset event,
`State.afterReset`. -/
def State.raise (s : State) (c : HaltCause) : State := { s with halted := true, haltCause := c }

/-- The `reset` event: the state of R40 and R201, whatever came before (R200, R214). The configuration is fixed (R37), the
input levels are not reset by the block (R40), and the events still to come are the environment's (log 4). It is the only way out of a halt (R178). -/
def State.afterReset (s : State) : State :=
  { State.resetOf s.config with key := s.key, paused := s.paused, events := s.events, rest := s.rest }

/-! ## The call stack (R25, R26) -/

/-- A push, `none` when 16 entries are in use (R103). -/
def State.push? (s : State) (w : Word) : Option State :=
  if h : s.sp.val < 16 then
    some { s with stack := s.stack.set s.sp.val w, sp := ⟨s.sp.val + 1, by omega⟩ }
  else none

/-- A pop, `none` when no entry is in use (R101). The popped entry keeps its content (R25). -/
def State.pop? (s : State) : Option (Word × State) :=
  if h : s.sp.val = 0 then none
  else some (s.stack[s.sp.val - 1]'(by omega), { s with sp := ⟨s.sp.val - 1, by omega⟩ })

/-! ## The random byte generator (spec/46_random.md R161) -/

/-- `rng_draw()`. -/
def State.rngDraw (s : State) : Byte × State :=
  let (r, b) := s.config.rngNext s.rng
  (b, { s with rng := r })

/-! ## Fetch (R58) -/

/-- `Fetch(PC)`: the two bytes at PC, `none` when PC is above 0x0FFE. -/
def State.fetch? (s : State) : Option (List Byte) :=
  if s.pc.toNat ≤ 0x0FFE then some (s.readBytes s.pc.toNat 2) else none

end Sys2Proof.Machine
end

