-- ==== Sys2Proof/Machine/Operands.lean ====
section
/-! DEFINITION. Every operand form of the instruction set (spec/30_encoding.md R74; spec/42_index_memory.md, opening). -/

namespace Sys2Proof.Machine

open Sys2Proof

/-- The address immediate `zext_16(nnn)` (R74). -/
def zextAddr (nnn : Addr12) : Word := nnn.setWidth 16

/-- A byte as a 16-bit value, `zext_16(V[x])`: the offset of Bnnn and the addend of Fx1E (R108, R131). -/
def zextByte (b : Byte) : Word := b.setWidth 16

/-- The base address of a transfer: I, as an unbounded address (R59). -/
def State.base (s : State) : Nat := s.i.toNat

/-- A transfer of `m` bytes from I reaches an address above 0xFFF (R57): the sums do not wrap (R59), and a transfer of
no byte is never out of range. -/
def State.outOfRange (s : State) (m : Nat) : Bool := decide (1 ≤ m) && decide (0xFFF < s.base + m - 1)

/-- The number of bytes moved by Fx55 and Fx65: the field `x` itself, plus one (R74). -/
def rangeLen (x : Reg) : Nat := x.val + 1

/-- The registers V0 to Vx, ascending (R134). -/
def State.regsUpTo (s : State) (x : Reg) : List Byte := s.v.toList.take (rangeLen x)

/-- V0 to Vx loaded from a list of bytes, the registers above Vx unchanged (R135). -/
def State.setRegsUpTo (s : State) (x : Reg) (bytes : List Byte) : State :=
  { s with v := Vector.ofFn fun (j : Reg) => if j ≤ x then bytes.getD j.val 0 else s.v[j] }

/-- The level of the key whose number is in Vx, `none` when the number is above 15; Vx is taken whole (R150, R151). -/
def State.keyOf? (s : State) (x : Reg) : Option Bool :=
  if h : (s.getV x).toNat < 16 then some s.key[(s.getV x).toNat] else none

/-- The least key that is down (R152). DESIGN CHOICE of the spec (D20), unsafe with two keys down (log 15). -/
def State.leastKey? (s : State) : Option Reg := (List.finRange 16).find? (fun k => s.key[k])

/-- The column of a sprite's left edge, `V[x] mod 64` (R141). -/
def State.column (s : State) (x : Reg) : Nat := (s.getV x).toNat % 64

/-- The row of a sprite's top edge, `V[y] mod 32` (R141). -/
def State.row (s : State) (y : Reg) : Nat := (s.getV y).toNat % 32

end Sys2Proof.Machine
end

