-- ==== Sys2Proof/Machine/Flags.lean ====
section
/-! DEFINITION. Every value written to VF as a side effect (the table of spec/10_state.md R21). -/

namespace Sys2Proof.Machine

open Sys2Proof

/-- A flag as the byte VF holds: 1 or 0. -/
def flagByte (c : Bool) : Byte := if c then 1 else 0

/-- `VF <- flag`. -/
def State.setFlag (s : State) (c : Bool) : State := s.setV VF (flagByte c)

/-- The carry of 8xy4: the sum of the entry operands exceeds 255 (R116). -/
def carryOut (a b : Byte) : Bool := decide (a.toNat + b.toNat > 255)

/-- The flag of 8xy5 and 8xy7: strictly greater, unsigned (R117, R119). -/
def greater (a b : Byte) : Bool := decide (a.toNat > b.toNat)

/-- The bit 8xy6 shifts out (R118). -/
def lowBit (a : Byte) : Bool := a.getLsbD 0

/-- The bit 8xyE shifts out (R120). -/
def highBit (a : Byte) : Bool := a.getLsbD 7

/-- The flag of Fx1E: the new I is above 0x0FFF (R131). -/
def aboveMemory (w : Word) : Bool := decide (w.toNat > 0x0FFF)

end Sys2Proof.Machine
end

