-- ==== Sys2Proof/Machine/Alu.lean ====
section
/-! DEFINITION. Register load, arithmetic, logic and shift (spec/41_alu.md R110 to R123). The writes of one instruction
happen in the order written, each reading the state left by the one before (R123; log 11). -/

namespace Sys2Proof.Machine

open Sys2Proof

/-- 6xkk, R110. -/
def execLdImm (x : Reg) (kk : Byte) (s : State) : Result := .next (s.setV x kk).advance

/-- 7xkk, R111: no flag. -/
def execAddImm (x : Reg) (kk : Byte) (s : State) : Result := .next (s.setV x (s.getV x + kk)).advance

/-- 8xy0, R112. -/
def execLdReg (x y : Reg) (s : State) : Result := .next (s.setV x (s.getV y)).advance

/-- 8xy1, 8xy2, 8xy3: the result, then VF reset to 0 (R113 to R115). -/
def State.setThenClearFlag (s : State) (x : Reg) (result : Byte) : State := (s.setV x result).setFlag false

/-- 8xy1, R113. -/
def execOr (x y : Reg) (s : State) : Result := .next (s.setThenClearFlag x (s.getV x ||| s.getV y)).advance

/-- 8xy2, R114. -/
def execAnd (x y : Reg) (s : State) : Result := .next (s.setThenClearFlag x (s.getV x &&& s.getV y)).advance

/-- 8xy3, R115. -/
def execXor (x y : Reg) (s : State) : Result := .next (s.setThenClearFlag x (s.getV x ^^^ s.getV y)).advance

/-- 8xy4, R116: one sum of the entry operands, the result written before the carry. -/
def execAddReg (x y : Reg) (s : State) : Result :=
  .next ((s.setV x (s.getV x + s.getV y)).setFlag (carryOut (s.getV x) (s.getV y))).advance

/-- 8xy5, R117: the flag first, then the difference of what the registers hold then. -/
def execSub (x y : Reg) (s : State) : Result :=
  let t := s.setFlag (greater (s.getV x) (s.getV y))
  .next (t.setV x (t.getV x - t.getV y)).advance

/-- 8xy6, R118: the flag first, then the shift; `y` is ignored (R77). -/
def execShr (x _y : Reg) (s : State) : Result :=
  let t := s.setFlag (lowBit (s.getV x))
  .next (t.setV x (t.getV x >>> 1)).advance

/-- 8xy7, R119: the flag first, then the difference of what the registers hold then. -/
def execSubn (x y : Reg) (s : State) : Result :=
  let t := s.setFlag (greater (s.getV y) (s.getV x))
  .next (t.setV x (t.getV y - t.getV x)).advance

/-- 8xyE, R120: the flag first, then the shift; `y` is ignored (R77). -/
def execShl (x _y : Reg) (s : State) : Result :=
  let t := s.setFlag (highBit (s.getV x))
  .next (t.setV x (t.getV x <<< 1)).advance

end Sys2Proof.Machine
end

