-- ==== Sys2Proof/Machine/Display.lean ====
section
/-! DEFINITION. The display buffer controller (spec/43_display.md R140 to R144). -/

namespace Sys2Proof.Machine

open Sys2Proof

/-- `fb[r][c]`, the display read port (R144). -/
def State.pixel (s : State) (r : Fin 32) (c : Fin 64) : Bool := s.fb[r].getMsbD c.val

/-- The pixels a sprite byte covers in a row when its left edge is at column `x0`: bit `7 - k` at column `x0 + k`, the
columns right of 63 lost (R141). Bit 7 leftmost is PRESUMED, unsafe (log 12). -/
def spriteRow (b : Byte) (x0 : Nat) : Row := (b.setWidth 64 <<< 56) >>> x0

/-- Drawing the sprite bytes from row `y0` down, top to bottom: each row is XORed in, rows below 31 are clipped, and the
second component says whether a set pixel was cleared (R141). -/
def drawSprite (x0 : Nat) : Frame → Nat → List Byte → Frame × Bool
  | fb, _, [] => (fb, false)
  | fb, y0, b :: bs =>
    if h : y0 < 32 then
      let m := spriteRow b x0
      let d := drawSprite x0 (fb.set y0 (fb[y0] ^^^ m)) (y0 + 1) bs
      (d.1, (fb[y0] &&& m != 0) || d.2)
    else drawSprite x0 fb (y0 + 1) bs

/-- 00E0, R140. -/
def execCls (s : State) : Result := .next { s with fb := Vector.replicate 32 0, dirty := true }.advance

/-- Dxyn, R141: coordinates from the entry registers, the range check over all `n` bytes, the draw, then VF.
Where the wording of R142 on the second of two equal draws differs, the flag is that of R141, which R142 is derived from
(log 24). -/
def execDrw (x y : Reg) (n : Nat) (s : State) : Result :=
  if s.outOfRange n then .next (s.raise .memoryRange)
  else
    let d := drawSprite (s.column x) s.fb (s.row y) (s.readBytes s.base n)
    .next ({ s with fb := d.1, dirty := true }.setFlag d.2).advance

end Sys2Proof.Machine
end

