-- ==== Sys2Proof/Machine/Flow.lean ====
section
/-! DEFINITION. Control transfer (spec/40_flow.md R100 to R108). -/

namespace Sys2Proof.Machine

open Sys2Proof

/-- 00EE, R101. -/
def execRet (s : State) : Result :=
  match s.pop? with
  | none => .next (s.raise .stackUnderflow)
  | some (w, t) => .next (t.jumpTo (w + 2))

/-- 1nnn, R102. -/
def execJp (nnn : Addr12) (s : State) : Result := .next (s.jumpTo (zextAddr nnn))

/-- 2nnn, R103: the address pushed is the call's own. -/
def execCall (nnn : Addr12) (s : State) : Result :=
  match s.push? s.pc with
  | none => .next (s.raise .stackOverflow)
  | some t => .next (t.jumpTo (zextAddr nnn))

/-- 3xkk, R104. -/
def execSeImm (x : Reg) (kk : Byte) (s : State) : Result := .next (s.skipIf (s.getV x == kk))

/-- 4xkk, R105. -/
def execSneImm (x : Reg) (kk : Byte) (s : State) : Result := .next (s.skipIf (s.getV x != kk))

/-- 5xy0, R106. -/
def execSeReg (x y : Reg) (s : State) : Result := .next (s.skipIf (s.getV x == s.getV y))

/-- 9xy0, R107. -/
def execSneReg (x y : Reg) (s : State) : Result := .next (s.skipIf (s.getV x != s.getV y))

/-- Bnnn, R108: the offset is V0 and the sum is not reduced modulo 4096. -/
def execJpV0 (nnn : Addr12) (s : State) : Result := .next (s.jumpTo (zextAddr nnn + zextByte (s.getV 0)))

end Sys2Proof.Machine
end

