-- ==== Sys2Proof/Machine/Index.lean ====
section
/-! DEFINITION. The index register and memory transfer (spec/42_index_memory.md R130 to R136). -/

namespace Sys2Proof.Machine

open Sys2Proof

/-- Annn, R130. -/
def execLdI (nnn : Addr12) (s : State) : Result := .next (s.setI (zextAddr nnn)).advance

/-- Fx1E, R131: I modulo 2^16, then the flag of the new I. -/
def execAddI (x : Reg) (s : State) : Result :=
  let t := s.setI (s.i + zextByte (s.getV x))
  .next (t.setFlag (aboveMemory t.i)).advance

/-- Fx29, R132: Vx is taken whole. -/
def execLdF (x : Reg) (s : State) : Result := .next (s.setI (5 * zextByte (s.getV x))).advance

/-- The three decimal digits of a byte, most significant first (R133). PRESUMED, unsafe (log 13). -/
def bcd (b : Byte) : List Byte := [b / 100, b / 10 % 10, b % 10]

/-- Fx33, R133. -/
def execLdB (x : Reg) (s : State) : Result :=
  if s.outOfRange 3 then .next (s.raise .memoryRange)
  else .next (s.storeBytes s.base (bcd (s.getV x))).advance

/-- `I <- I + x + 1`, the advance of Fx55 and Fx65. -/
def State.advanceI (s : State) (x : Reg) : State := s.setI (s.i + BitVec.ofNat 16 (rangeLen x))

/-- Fx55, R134. -/
def execStoreRegs (x : Reg) (s : State) : Result :=
  if s.outOfRange (rangeLen x) then .next (s.raise .memoryRange)
  else .next ((s.storeBytes s.base (s.regsUpTo x)).advanceI x).advance

/-- Fx65, R135. -/
def execLoadRegs (x : Reg) (s : State) : Result :=
  if s.outOfRange (rangeLen x) then .next (s.raise .memoryRange)
  else .next ((s.setRegsUpTo x (s.readBytes s.base (rangeLen x))).advanceI x).advance

end Sys2Proof.Machine
end

