-- ==== Sys2Proof/Machine/Keypad.lean ====
section
/-! DEFINITION. The keypad instructions (spec/44_keypad.md R150 to R153). -/

namespace Sys2Proof.Machine

open Sys2Proof

/-- Ex9E, R150. -/
def execSkp (x : Reg) (s : State) : Result :=
  match s.keyOf? x with
  | none => .next (s.raise .keyIndex)
  | some down => .next (s.skipIf down)

/-- ExA1, R151. -/
def execSknp (x : Reg) (s : State) : Result :=
  match s.keyOf? x with
  | none => .next (s.raise .keyIndex)
  | some down => .next (s.skipIf (!down))

/-- Fx0A, R152: a poll; while no key is down nothing changes. -/
def execLdVxK (x : Reg) (s : State) : Result :=
  match s.leastKey? with
  | none => .next s
  | some k => .next (s.setV x (BitVec.ofNat 8 k.val)).advance

end Sys2Proof.Machine
end

