-- ==== Sys2Proof/Machine/Random.lean ====
section
/-! DEFINITION. The random instruction (spec/46_random.md R160). -/

namespace Sys2Proof.Machine

open Sys2Proof

/-- Cxkk, R160: one draw, under the mask. The byte is free unless the configuration supplies it (log 7). -/
def execRnd (x : Reg) (kk : Byte) (s : State) : Result :=
  let d := s.rngDraw
  .next (d.2.setV x (d.1 &&& kk)).advance

end Sys2Proof.Machine
end

