-- ==== Sys2Proof/Machine/Timer.lean ====
section
/-! DEFINITION. The timer instructions (spec/45_timer.md R155 to R158), the timer tick and the beep
(spec/60_exceptions.md R180 to R183). Which instruction serves which timer is PRESUMED, unsafe (log 14). -/

namespace Sys2Proof.Machine

open Sys2Proof

/-- Fx07, R155. -/
def execLdVxDT (x : Reg) (s : State) : Result := .next (s.setV x s.dt).advance

/-- Fx15, R156. -/
def execLdDTVx (x : Reg) (s : State) : Result := .next { s with dt := s.getV x }.advance

/-- Fx18, R157. -/
def execLdSTVx (x : Reg) (s : State) : Result := .next { s with st := s.getV x }.advance

/-- One decrement, staying at zero (R180; C7). -/
def countDown (b : Byte) : Byte := if b = 0 then 0 else b - 1

/-- The `timer_tick` event: both timers at once (R180), nothing while paused or halted (R181, R178). -/
def State.timerTick (s : State) : State :=
  if s.paused || s.halted then s else { s with dt := countDown s.dt, st := countDown s.st }

/-- The beep output level (R29, R183). -/
def State.beep (s : State) : Bool := s.st != 0 && !s.paused && !s.halted

/-- `beepStart()`: a 0-to-1 edge of the level between two states (R183). -/
def beepStart (s t : State) : Bool := !s.beep && t.beep

/-- `beepStop()`: a 1-to-0 edge of the level between two states (R183). -/
def beepStop (s t : State) : Bool := s.beep && !t.beep

end Sys2Proof.Machine
end

