-- ==== Sys2Proof/Machine/Cycle.lean ====
section
/-! DEFINITION. The instruction cycle (spec/30_encoding.md R70) and the events of the other agents
(spec/60_exceptions.md R176 to R190), which Step.lean calls. -/

namespace Sys2Proof.Machine

open Sys2Proof

/-- One enabled instruction cycle: fetch, decode, execute, with the faults in the order of R174. -/
def instructionCycle (s : State) : Result :=
  match s.fetch? with
  | none => .next (s.raise .fetchRange)
  | some bytes =>
    match decode bytes with
    | .error _ => .next (s.raise .illegalOpcode)
    | .ok (i, _) => exec i s

/-- The gate of R187: not halted, and running or single-stepped. -/
def State.cycleEnabled (s : State) (stepReq : Bool) : Bool := !s.halted && (!s.paused || stepReq)

/-- A `cpu_cycle` event: it closes the time for `rom_load` (R38; log 8), and executes one instruction when enabled. -/
def cpuCycle (stepReq : Bool) (s : State) : Result :=
  let t := { s with romOpen := false }
  if t.cycleEnabled stepReq then instructionCycle t else .next t

/-- A `rom_load` event (R66, R202, R203): the image at 0x200 upward. An image too long is the fatal load error, a load
after the first cycle is refused (log 9). DESIGN CHOICE, unsafe (log 25): the boot sequence of R202 has one load and is
silent on another; a second load before the first cycle is accepted and overlays the first image. -/
def romLoad (image : List Byte) (s : State) : Result :=
  if !s.romOpen then .refused .romLoadAfterFirstCycle
  else if image.length > Config.romMax then .fault .fatalLoadError
  else .next (s.storeBytes Config.romBase image)

/-- The effect of one event. `shutdown` stays at the head of the list, so that no event follows it (R188; log 3). -/
def handleEvent (e : Event) (s : State) : Result :=
  match e with
  | .cpuCycle stepReq => cpuCycle stepReq s
  | .timerTick => .next s.timerTick
  | .setKey k down => .next { s with key := s.key.set k down }
  | .setPaused level => .next { s with paused := level }
  | .renderAck => .next { s with dirty := false }
  | .redraw => .next s
  | .romLoad image => romLoad image s
  | .reset => .next s.afterReset
  | .shutdown => .next { s with events := .shutdown :: s.events }

/-- A free event, unless it is a ROM load that the host does not have (R66, R202, R203): then a `cpu_cycle` comes (log 2). -/
def State.allow (s : State) (e : Event) : Event :=
  match e with
  | .romLoad image => if s.romOpen && decide (image.length ≤ Config.romMax) then .romLoad image else .cpuCycle false
  | other => other

/-- The event that comes next: the first one listed, else what `rest` says (log 2). -/
def State.nextEvent (s : State) : Event :=
  match s.events, s.rest with
  | e :: _, _ => e
  | [], .cycles => .cpuCycle false
  | [], .free n => s.allow (Config.freeEvent n)

/-- `rest` once it has given an event. -/
def Rest.next : Rest → Rest
  | .cycles => .cycles
  | .free n => .free (n + 1)

/-- The state with its next event taken: off the list, or from `rest`. -/
def State.dropEvent (s : State) : State :=
  { s with events := s.events.tail, rest := if s.events.isEmpty then s.rest.next else s.rest }

/-- A state about to fetch at PC (PC moved to the entry point if nothing can be fetched there) with a cycle due and
enabled: what `State.withFetchWord` needs beside the word itself. -/
def State.readyToFetch (s : State) : State :=
  { s with
    pc := if s.pc.toNat ≤ 0x0FFE then s.pc else 0x200
    events := []
    rest := .cycles
    halted := false
    haltCause := .none
    paused := false }

end Sys2Proof.Machine
end

