-- ==== Sys2Proof/Machine/Step.lean ====
section
/-! DEFINITION. One step of the machine: the next event, whole (spec/00_scope.md R12, spec/20_memory.md R62). -/

namespace Sys2Proof.Machine

open Sys2Proof

/-- One step: the next event takes effect on the state without it. -/
def step (s : State) : Host.Outcome State Fault Refusal := handleEvent s.nextEvent s.dropEvent

/-- The state with a word, numbered as spec/opcode_table.json numbers it, stored high byte first where `step` fetches
next, and a cycle due and enabled (log 10). -/
def State.withFetchWord (s : State) (nbits w : Nat) : State :=
  let t := s.readyToFetch
  let word : Word := BitVec.ofNat 16 (w % 2 ^ nbits)
  t.storeBytes t.pc.toNat [word.hiByte, word.loByte]

end Sys2Proof.Machine
end

