-- ==== Sys2Proof/Safety.lean ====
section
/-! DEFINITION. What counts as a safe run, and the terms the claims use: the invariant of the state, the frame of an
instruction, the two ends of a run (spec/60_exceptions.md R178, spec/70_reset_and_hazards.md R212). -/

namespace Sys2Proof.Machine

open Sys2Proof

/-- A fault outcome: "a model should count it as a fault outcome, never as a final state" (R178). -/
def State.Faulted (s : State) : Prop := s.halted = true

/-- The normal end of a run that the spec offers (R212, D27): not halted, and the word at PC is a jump to PC. -/
def State.EndedNormally (s : State) : Prop :=
  s.halted = false ∧ ∃ nnn : Addr12, zextAddr nnn = s.pc ∧ s.fetch? = some (encode (.jp nnn))

/-- What every step keeps: memory in canonical form, the halt code nonzero exactly when halted (R34), every stack entry in
use the address of an instruction that was fetched (R25, R58, R101), and no ROM load after a halt (R66). -/
structure State.Inv (s : State) : Prop where
  memory : s.mem.wf s.config = true
  halt : s.halted = true ↔ s.haltCause ≠ .none
  returns : ∀ k : Fin 16, k.val < s.sp.val → s.stack[k].toNat ≤ 0x0FFE
  romClosed : s.halted = true → s.romOpen = false

/-- A part of the state, for saying what an instruction or an event may change. -/
inductive Part where
  | regs | index | pc | stack | delay | sound | frame | dirty | keys | paused | rng | halt | memory | romOpen | events
  deriving DecidableEq, Repr

/-- `t` differs from `s` in the listed parts at most; the configuration is no part and never differs (R37). Memory is
compared byte by byte, as it is read. -/
structure SameBut (parts : List Part) (s t : State) : Prop where
  config : t.config = s.config
  regs : Part.regs ∉ parts → t.v = s.v
  index : Part.index ∉ parts → t.i = s.i
  pc : Part.pc ∉ parts → t.pc = s.pc
  stack : Part.stack ∉ parts → t.stack = s.stack ∧ t.sp = s.sp
  delay : Part.delay ∉ parts → t.dt = s.dt
  sound : Part.sound ∉ parts → t.st = s.st
  frame : Part.frame ∉ parts → t.fb = s.fb
  dirty : Part.dirty ∉ parts → t.dirty = s.dirty
  keys : Part.keys ∉ parts → t.key = s.key
  paused : Part.paused ∉ parts → t.paused = s.paused
  rng : Part.rng ∉ parts → t.rng = s.rng
  halt : Part.halt ∉ parts → t.halted = s.halted ∧ t.haltCause = s.haltCause
  memory : Part.memory ∉ parts → ∀ a, t.readByte a = s.readByte a
  romOpen : Part.romOpen ∉ parts → t.romOpen = s.romOpen
  events : Part.events ∉ parts → t.events = s.events ∧ t.rest = s.rest

/-- Every register outside the list holds what it held. -/
def RegsSameBut (xs : List Reg) (s t : State) : Prop := ∀ j : Reg, j ∉ xs → t.getV j = s.getV j

/-- The pixels that Dxyn covers with a set sprite bit in state `s` (R141): the corner is `(V[x] mod 64, V[y] mod 32)` and
sprite row `j` is `mem[I + j]`. -/
def State.spriteCovers (s : State) (x y : Reg) (n : Nat) (r : Fin 32) (c : Fin 64) : Bool :=
  let x0 := (s.getV x).toNat % 64
  let y0 := (s.getV y).toNat % 32
  decide (y0 ≤ r.val ∧ r.val < y0 + n ∧ x0 ≤ c.val ∧ c.val < x0 + 8) &&
    (s.readByte (s.i.toNat + (r.val - y0))).getLsbD (7 - (c.val - x0))

/-- A transfer of `m` bytes from I has a byte above 0xFFF (R57, the MemoryRange row of R171). -/
def State.transferOutside (s : State) (m : Nat) : Prop := 1 ≤ m ∧ 0xFFF < s.i.toNat + m - 1

/-- Which instruction raises which fault in which state: the table of R171. -/
inductive Raises : Instr → State → HaltCause → Prop where
  | stackOverflow (nnn : Addr12) (s : State) : s.sp.val = 16 → Raises (.call nnn) s .stackOverflow
  | stackUnderflow (s : State) : s.sp.val = 0 → Raises .ret s .stackUnderflow
  | drawOutside (x y : Reg) (n : Nat) (s : State) : s.transferOutside n → Raises (.drw x y n) s .memoryRange
  | digitsOutside (x : Reg) (s : State) : s.transferOutside 3 → Raises (.ldB x) s .memoryRange
  | storeOutside (x : Reg) (s : State) : s.transferOutside (x.val + 1) → Raises (.storeRegs x) s .memoryRange
  | loadOutside (x : Reg) (s : State) : s.transferOutside (x.val + 1) → Raises (.loadRegs x) s .memoryRange
  | keyDownIndex (x : Reg) (s : State) : 15 < (s.getV x).toNat → Raises (.skp x) s .keyIndex
  | keyUpIndex (x : Reg) (s : State) : 15 < (s.getV x).toNat → Raises (.sknp x) s .keyIndex

/-- The parts of the state an instruction may write: the CPU column of R39 with the effect column of R76, and the halt
status for the instructions of R171 that can fault. -/
def partsOf : Instr → List Part
  | .cls => [.frame, .dirty, .pc]
  | .ret | .call _ => [.stack, .pc, .halt]
  | .jp _ | .jpV0 _ => [.pc]
  | .seImm _ _ | .sneImm _ _ | .seReg _ _ | .sneReg _ _ => [.pc]
  | .ldImm _ _ | .addImm _ _ | .ldReg _ _ | .orReg _ _ | .andReg _ _ | .xorReg _ _ => [.regs, .pc]
  | .addReg _ _ | .subReg _ _ | .shr _ _ | .subnReg _ _ | .shl _ _ => [.regs, .pc]
  | .ldI _ | .ldF _ => [.index, .pc]
  | .addI _ => [.regs, .index, .pc]
  | .rnd _ _ => [.regs, .rng, .pc]
  | .drw _ _ _ => [.regs, .frame, .dirty, .pc, .halt]
  | .skp _ | .sknp _ => [.pc, .halt]
  | .ldVxDT _ | .ldVxK _ => [.regs, .pc]
  | .ldDTVx _ => [.delay, .pc]
  | .ldSTVx _ => [.sound, .pc]
  | .ldB _ => [.memory, .pc, .halt]
  | .storeRegs _ => [.memory, .index, .pc, .halt]
  | .loadRegs _ => [.regs, .index, .pc, .halt]

/-- The general registers an instruction may write: its `x` register where the effect column of R76 names one, VF where
the table of R21 lists it, and V0 to Vx for Fx65. -/
def destsOf : Instr → List Reg
  | .ldImm x _ | .addImm x _ | .ldReg x _ | .rnd x _ | .ldVxDT x | .ldVxK x => [x]
  | .orReg x _ | .andReg x _ | .xorReg x _ | .addReg x _ | .subReg x _ | .shr x _ | .subnReg x _ | .shl x _ => [x, VF]
  | .addI _ | .drw _ _ _ => [VF]
  | .loadRegs x => (List.finRange 16).filter (· ≤ x)
  | .cls | .ret | .jp _ | .call _ | .seImm _ _ | .sneImm _ _ | .seReg _ _ | .sneReg _ _ | .ldI _ | .jpV0 _ => []
  | .skp _ | .sknp _ | .ldDTVx _ | .ldSTVx _ | .ldF _ | .ldB _ | .storeRegs _ => []

/-- The values an instruction that does not fault may leave in PC: the PC column of R76. -/
def pcOutcomesOf (i : Instr) (s : State) : List Word :=
  match i with
  | .ret => if h : s.sp.val = 0 then [] else [s.stack[s.sp.val - 1]'(by omega) + 2]
  | .jp nnn | .call nnn => [nnn.setWidth 16]
  | .jpV0 nnn => [nnn.setWidth 16 + (s.getV 0).setWidth 16]
  | .seImm _ _ | .sneImm _ _ | .seReg _ _ | .sneReg _ _ | .skp _ | .sknp _ => [s.pc + 4, s.pc + 2]
  | .ldVxK _ => [s.pc + 2, s.pc]
  | .cls | .ldImm _ _ | .addImm _ _ | .ldReg _ _ | .orReg _ _ | .andReg _ _ | .xorReg _ _ => [s.pc + 2]
  | .addReg _ _ | .subReg _ _ | .shr _ _ | .subnReg _ _ | .shl _ _ | .ldI _ | .addI _ | .ldF _ => [s.pc + 2]
  | .rnd _ _ | .drw _ _ _ | .ldVxDT _ | .ldDTVx _ | .ldSTVx _ | .ldB _ | .storeRegs _ | .loadRegs _ => [s.pc + 2]

end Sys2Proof.Machine
end

