-- ==== Sys2Proof/Certificates/Slice0/Obligations.lean ====
section
/-! DEFINITION. The statements about the machine, from the numbered rules of spec/. "D<n>" is a decision of
spec/92_eei_decisions.md, which the spec marks as its own choice; "log <n>" is notes/assumptions/<n>.md. -/

open Sys2Proof Sys2Proof.Machine

/-! ## Encoding -/

/-- Words written out from the encoding column decode to their instructions (30_encoding.md sections 2 and 3). -/
def Obligations.DecodesWordsOfEveryFamily : Prop :=
  decodeWord 0x00EE = .ok .ret ∧ decodeWord 0x2300 = .ok (.call 0x300) ∧ decodeWord 0x6A05 = .ok (.ldImm 10 0x05) ∧
    decodeWord 0x8127 = .ok (.subnReg 1 2) ∧ decodeWord 0xF255 = .ok (.storeRegs 2) ∧
    decodeWord 0xDAB5 = .ok (.drw 10 11 5) ∧ decodeWord 0xE19E = .ok (.skp 1) ∧ decodeWord 0xF118 = .ok (.ldSTVx 1) ∧
    decodeWord 0xC10F = .ok (.rnd 1 0x0F) ∧ decodeWord 0x5121 = .error (.illegalOpcode 0x5121)

/-- Decoding the bytes of a well-formed instruction gives it back, with the bytes after it (30_encoding.md sections 2
and 3). -/
def Obligations.DecodeOfEncodeIsTheInstruction : Prop :=
  ∀ (i : Instr) (rest : List Byte), i.wellFormed = true → decode (encode i ++ rest) = .ok (i, rest)

/-- A word that decodes has one encoding, itself: no bit of it is dropped, not even the ignored `y` of the shifts
(30_encoding.md sections 2 and 3). -/
def Obligations.EncodeOfDecodeIsTheWord : Prop :=
  ∀ (w : Word) (i : Instr), decodeWord w = .ok i → i.wellFormed = true ∧ encodeWord i = w

/-- A word decodes exactly when it selects a row of the opcode map, to an instruction of a row it selects; it selects at
most one row; and a word that selects none is rejected as an illegal opcode. Exact matching is decision D25. -/
def Obligations.WordDecodesExactlyWhenItSelectsARow : Prop :=
  (∀ w : Word, w.legal = true → ∃ i, decodeWord w = .ok i ∧ i.pattern ∈ Pattern.table ∧ i.pattern.selects w = true) ∧
    (∀ w : Word, w.legal = false → decodeWord w = .error (.illegalOpcode w)) ∧
    ∀ (w : Word) (p q : Pattern), p ∈ Pattern.table → q ∈ Pattern.table → p.selects w = true → q.selects w = true → p = q

/-! ## The cycle -/

/-- MODEL'S OWN (log 2): the events come as they are listed; when none is listed, the free events of the environment come one
after the other, but for a ROM load the host does not have, or instruction cycles come for ever. -/
def Obligations.EventsComeAsListedThenAsRestSays : Prop :=
  ∀ s : State,
    (∀ e es, s.events = e :: es → s.nextEvent = e ∧ s.dropEvent = { s with events := es }) ∧
      (∀ n, s.events = [] → s.rest = .free n →
        (s.nextEvent = Config.freeEvent n ∨
            ∃ image, Config.freeEvent n = .romLoad image ∧ (s.romOpen = false ∨ 3584 < image.length) ∧
              s.nextEvent = .cpuCycle false) ∧
          s.dropEvent = { s with rest := .free (n + 1) }) ∧
      (s.events = [] → s.rest = .cycles → s.nextEvent = .cpuCycle false ∧ s.dropEvent = s)

/-- When the bytes at PC decode to an instruction, a step whose event is an enabled `cpu_cycle` is exec of it on the state
without the event, with the time for `rom_load` closed (30_encoding.md section 1, D6, D30; log 2, log 8). -/
def Obligations.StepRunsTheDecodedInstruction : Prop :=
  ∀ (s : State) (stepReq : Bool) (i : Instr), s.nextEvent = .cpuCycle stepReq → s.halted = false →
    (s.paused = false ∨ stepReq = true) → s.pc.toNat ≤ 0x0FFE →
    decode [s.readByte s.pc.toNat, s.readByte (s.pc.toNat + 1)] = .ok (i, []) →
    step s = exec i { s.dropEvent with romOpen := false }

/-- With PC above 0x0FFE an enabled cycle halts with FetchRange, whatever memory holds, and PC stays (D6, D8, D29;
log 16). -/
def Obligations.FetchAboveMemoryHalts : Prop :=
  ∀ (s : State) (stepReq : Bool), s.nextEvent = .cpuCycle stepReq → s.halted = false →
    (s.paused = false ∨ stepReq = true) → 0x0FFE < s.pc.toNat →
    step s = .next { s.dropEvent with romOpen := false, halted := true, haltCause := .fetchRange }

/-- A fetched word that selects no row of the opcode map halts an enabled cycle with IllegalOpcode, and nothing else
changes (30_encoding.md section 4, D8, D25; log 16). -/
def Obligations.IllegalWordHalts : Prop :=
  ∀ (s : State) (stepReq : Bool), s.nextEvent = .cpuCycle stepReq → s.halted = false →
    (s.paused = false ∨ stepReq = true) → s.pc.toNat ≤ 0x0FFE →
    (Word.ofBytes (s.readByte s.pc.toNat) (s.readByte (s.pc.toNat + 1))).legal = false →
    step s = .next { s.dropEvent with romOpen := false, halted := true, haltCause := .illegalOpcode }

/-- A `cpu_cycle` that is not enabled (halted, or paused without a step request) changes nothing of the block (D30). -/
def Obligations.DisabledCycleDoesNothing : Prop :=
  ∀ (s : State) (stepReq : Bool), s.nextEvent = .cpuCycle stepReq →
    (s.halted = true ∨ (s.paused = true ∧ stepReq = false)) →
    step s = .next { s.dropEvent with romOpen := false }

/-- MODEL'S OWN (log 10): the host's placed word is the instruction the very next step runs. -/
def Obligations.PlacedWordIsTheNextInstructionRun : Prop :=
  ∀ (s : State) (w : Nat) (i : Instr), s.mem.wf s.config = true → decodeTableWord 16 w = some i →
    step (s.withFetchWord 16 w) = exec i { s.withFetchWord 16 w with romOpen := false }

/-! ## Faults and the halt -/

/-- An instruction raises the faults of the table of 60_exceptions.md section 1 in the states it says, and then changes
only the halt status (D4, D5, D8, D19; log 16). -/
def Obligations.FaultingInstructionOnlyHalts : Prop :=
  ∀ (i : Instr) (s : State) (c : HaltCause), Raises i s c →
    exec i s = .next { s with halted := true, haltCause := c }

/-- In every other state the instruction completes: it answers a next state and leaves the halt status alone
(60_exceptions.md section 1, D4, D5, D19; log 16). -/
def Obligations.OtherInstructionsComplete : Prop :=
  ∀ (i : Instr) (s : State), (∀ c, ¬ Raises i s c) →
    ∃ t, exec i s = .next t ∧ t.halted = s.halted ∧ t.haltCause = s.haltCause

/-- Faults are precise: a cycle that halts the machine changes nothing else, whatever the instruction (D8). -/
def Obligations.HaltingCycleIsPrecise : Prop :=
  ∀ (s t : State) (stepReq : Bool), s.nextEvent = .cpuCycle stepReq → s.halted = false → step s = .next t →
    t.halted = true →
    t.haltCause ≠ .none ∧
      t = { s.dropEvent with romOpen := false, halted := true, haltCause := t.haltCause }

/-- A halted machine: every event but `reset` and `rom_load` leaves all but the inputs, `dirty` and the model's own fields
alone, and `beep` stays 0; a `rom_load` is refused (D10; log 9, log 18). -/
def Obligations.HaltedMachineIsFrozen : Prop :=
  ∀ s : State, s.Inv → s.halted = true → s.nextEvent ≠ .reset →
    (∃ image, s.nextEvent = .romLoad image ∧ step s = .refused .romLoadAfterFirstCycle) ∨
      ∃ t, step s = .next t ∧ SameBut [.dirty, .keys, .paused, .romOpen, .events] s t ∧ t.beep = false

/-! ## Invariants and reset -/

/-- The reset state meets the invariant, `State.Inv` (its zeros are D2, log 5). -/
def Obligations.ResetMeetsTheInvariant : Prop := State.reset.Inv

/-- Every step, whatever its event, keeps the invariant: canonical memory, a halt code exactly when halted, return
addresses of fetched calls, no ROM load after a halt (10_state.md sections 2, 6 and 7, 40_flow.md section 2). -/
def Obligations.StepKeepsTheInvariant : Prop :=
  ∀ s t : State, s.Inv → step s = .next t → t.Inv

/-- The `reset` event builds the reset state whatever came before, and a ROM may be loaded again; only the configuration, the
inputs and the events still to come are kept (70_reset_and_hazards.md sections 1, 2 and 5; the zeros are D2, the inputs
log 4, the events log 2). -/
def Obligations.ResetEventRebuildsTheState : Prop :=
  ∀ s : State, s.nextEvent = .reset →
    ∃ t, step s = .next t ∧ t.pc = 0x200 ∧ (∀ a, t.readByte a = if h : a < 80 then s.config.font[a] else 0) ∧
      (∀ x, t.getV x = 0) ∧ t.i = 0 ∧ t.sp = 0 ∧ (∀ k : Fin 16, t.stack[k] = 0) ∧ t.dt = 0 ∧ t.st = 0 ∧
      (∀ r c, t.pixel r c = false) ∧ t.dirty = false ∧ t.halted = false ∧ t.haltCause = .none ∧
      t.rng = s.config.rngSeed ∧ t.romOpen = true ∧ t.config = s.config ∧ t.key = s.key ∧ t.paused = s.paused ∧
      t.events = s.dropEvent.events ∧ t.rest = s.dropEvent.rest

/-- No step, whatever its event, changes the configuration (10_state.md section 8). -/
def Obligations.ConfigurationIsFixed : Prop :=
  ∀ s t : State, step s = .next t → t.config = s.config

/-! ## Control transfer -/

/-- 1nnn: R102. -/
def Obligations.JumpGoesToItsAddress : Prop :=
  ∀ (nnn : Addr12) (s : State), ∃ t, exec (.jp nnn) s = .next t ∧ t.pc.toNat = nnn.toNat ∧ SameBut [.pc] s t

/-- Bnnn: R108. -/
def Obligations.IndexedJumpAddsV0 : Prop :=
  ∀ (nnn : Addr12) (s : State),
    ∃ t, exec (.jpV0 nnn) s = .next t ∧ t.pc.toNat = nnn.toNat + (s.getV 0).toNat ∧ SameBut [.pc] s t

/-- 2nnn with fewer than 16 entries in use pushes its own address and jumps (40_flow.md section 4; the numbering of SP is
D3). -/
def Obligations.CallPushesItsOwnAddress : Prop :=
  ∀ (nnn : Addr12) (s : State), s.sp.val ≠ 16 →
    ∃ t, exec (.call nnn) s = .next t ∧ t.pc.toNat = nnn.toNat ∧ t.sp.val = s.sp.val + 1 ∧
      (∀ k : Fin 16, t.stack[k] = if k.val = s.sp.val then s.pc else s.stack[k]) ∧ SameBut [.stack, .pc] s t

/-- 00EE with an entry in use pops it and continues two bytes after it (40_flow.md section 2; D3). -/
def Obligations.ReturnPopsAndAddsTwo : Prop :=
  ∀ (s : State) (k : Fin 16), s.sp.val = k.val + 1 →
    ∃ t, exec .ret s = .next t ∧ t.pc = s.stack[k] + 2 ∧ t.sp.val = k.val ∧ t.stack = s.stack ∧ SameBut [.stack, .pc] s t

/-- A call followed by a return resumes after the call with the stack pointer restored, for any nnn (40_flow.md section
2, the source's test). -/
def Obligations.ReturnAfterCallResumesAfterIt : Prop :=
  ∀ (nnn : Addr12) (s : State), s.sp.val ≠ 16 →
    ∃ t u, exec (.call nnn) s = .next t ∧ exec .ret t = .next u ∧ u.pc = s.pc + 2 ∧ u.sp = s.sp ∧
      (∀ k : Fin 16, k.val < s.sp.val → u.stack[k] = s.stack[k]) ∧ SameBut [.stack, .pc] s u

/-- 3xkk and 4xkk: R104, R105. -/
def Obligations.SkipsOnImmediate : Prop :=
  ∀ (x : Reg) (kk : Byte) (s : State),
    (∃ t, exec (.seImm x kk) s = .next t ∧ t.pc = (if s.getV x = kk then s.pc + 4 else s.pc + 2) ∧ SameBut [.pc] s t) ∧
      ∃ t, exec (.sneImm x kk) s = .next t ∧ t.pc = (if s.getV x ≠ kk then s.pc + 4 else s.pc + 2) ∧ SameBut [.pc] s t

/-- 5xy0 and 9xy0: R106, R107. -/
def Obligations.SkipsOnRegisters : Prop :=
  ∀ (x y : Reg) (s : State),
    (∃ t, exec (.seReg x y) s = .next t ∧ t.pc = (if s.getV x = s.getV y then s.pc + 4 else s.pc + 2) ∧
        SameBut [.pc] s t) ∧
      ∃ t, exec (.sneReg x y) s = .next t ∧ t.pc = (if s.getV x ≠ s.getV y then s.pc + 4 else s.pc + 2) ∧
        SameBut [.pc] s t

/-! ## Load, arithmetic, logic, shift -/

/-- 6xkk and 8xy0: R110, R112. -/
def Obligations.LoadsWriteTheRegister : Prop :=
  ∀ (x y : Reg) (kk : Byte) (s : State),
    (∃ t, exec (.ldImm x kk) s = .next t ∧ t.getV x = kk ∧ t.pc = s.pc + 2 ∧ RegsSameBut [x] s t ∧
        SameBut [.regs, .pc] s t) ∧
      ∃ t, exec (.ldReg x y) s = .next t ∧ t.getV x = s.getV y ∧ t.pc = s.pc + 2 ∧ RegsSameBut [x] s t ∧
        SameBut [.regs, .pc] s t

/-- 7xkk: R111. VF is written only when it is `x`. -/
def Obligations.AddImmediateWrapsWithoutAFlag : Prop :=
  ∀ (x : Reg) (kk : Byte) (s : State),
    ∃ t, exec (.addImm x kk) s = .next t ∧ (t.getV x).toNat = ((s.getV x).toNat + kk.toNat) % 256 ∧ t.pc = s.pc + 2 ∧
      RegsSameBut [x] s t ∧ SameBut [.regs, .pc] s t

/-- 8xy1, 8xy2, 8xy3: the bitwise result of the entry operands, then VF reset to 0, so that x = F ends with 0
(41_alu.md section 4; the x = F and y = F readings are D11). -/
def Obligations.LogicResetsTheFlag : Prop :=
  ∀ (x y : Reg) (s : State),
    (∃ t, exec (.orReg x y) s = .next t ∧ (x ≠ VF → t.getV x = s.getV x ||| s.getV y) ∧ t.getV VF = 0 ∧
        t.pc = s.pc + 2 ∧ RegsSameBut [x, VF] s t ∧ SameBut [.regs, .pc] s t) ∧
      (∃ t, exec (.andReg x y) s = .next t ∧ (x ≠ VF → t.getV x = s.getV x &&& s.getV y) ∧ t.getV VF = 0 ∧
        t.pc = s.pc + 2 ∧ RegsSameBut [x, VF] s t ∧ SameBut [.regs, .pc] s t) ∧
      ∃ t, exec (.xorReg x y) s = .next t ∧ (x ≠ VF → t.getV x = s.getV x ^^^ s.getV y) ∧ t.getV VF = 0 ∧
        t.pc = s.pc + 2 ∧ RegsSameBut [x, VF] s t ∧ SameBut [.regs, .pc] s t

/-- 8xy4: the sum of the entry operands modulo 256, then VF the carry, which overwrites the sum when x = F (41_alu.md
section 5; the x = F and y = F readings are D11). -/
def Obligations.AddWritesSumThenCarry : Prop :=
  ∀ (x y : Reg) (s : State),
    ∃ t, exec (.addReg x y) s = .next t ∧
      (x ≠ VF → (t.getV x).toNat = ((s.getV x).toNat + (s.getV y).toNat) % 256) ∧
      t.getV VF = (if (s.getV x).toNat + (s.getV y).toNat > 255 then 1 else 0) ∧ t.pc = s.pc + 2 ∧
      RegsSameBut [x, VF] s t ∧ SameBut [.regs, .pc] s t

/-- 8xy5 and 8xy7: the flag f (strictly greater, unsigned) is written to VF first and the difference, modulo 256, is of
what the registers hold then: f stands for the operand that is VF, and x = F ends with the difference (41_alu.md sections
6 and 8; the x = F and y = F readings are D11). -/
def Obligations.SubtractionsWriteFlagThenDifference : Prop :=
  ∀ (x y : Reg) (s : State),
    (∃ t, ∃ f : Byte, exec (.subReg x y) s = .next t ∧ f = (if (s.getV x).toNat > (s.getV y).toNat then 1 else 0) ∧
        (x ≠ VF → t.getV VF = f) ∧
        ((t.getV x).toNat : Int) =
          (((if x = VF then f else s.getV x).toNat : Int) - ((if y = VF then f else s.getV y).toNat : Int)) % 256 ∧
        t.pc = s.pc + 2 ∧ RegsSameBut [x, VF] s t ∧ SameBut [.regs, .pc] s t) ∧
      ∃ t, ∃ f : Byte, exec (.subnReg x y) s = .next t ∧ f = (if (s.getV y).toNat > (s.getV x).toNat then 1 else 0) ∧
        (x ≠ VF → t.getV VF = f) ∧
        ((t.getV x).toNat : Int) =
          (((if y = VF then f else s.getV y).toNat : Int) - ((if x = VF then f else s.getV x).toNat : Int)) % 256 ∧
        t.pc = s.pc + 2 ∧ RegsSameBut [x, VF] s t ∧ SameBut [.regs, .pc] s t

/-- 8xy6 and 8xyE: VF takes the bit shifted out, then Vx is shifted by one; `y` has no effect; with x = F the shift is of
the flag just written (41_alu.md sections 7 and 9; the x = F reading is D11). -/
def Obligations.ShiftsWriteFlagThenResult : Prop :=
  ∀ (x y : Reg) (s : State),
    (∃ t, exec (.shr x y) s = .next t ∧ (x ≠ VF → (t.getV VF).toNat = (s.getV x).toNat % 2) ∧
        (t.getV x).toNat = (if x = VF then 0 else (s.getV x).toNat / 2) ∧ t.pc = s.pc + 2 ∧
        RegsSameBut [x, VF] s t ∧ SameBut [.regs, .pc] s t) ∧
      ∃ t, exec (.shl x y) s = .next t ∧ (x ≠ VF → (t.getV VF).toNat = (s.getV x).toNat / 128) ∧
        (t.getV x).toNat = (if x = VF then 2 * ((s.getV x).toNat / 128) else (s.getV x).toNat * 2 % 256) ∧
        t.pc = s.pc + 2 ∧ RegsSameBut [x, VF] s t ∧ SameBut [.regs, .pc] s t

/-! ## Index register and memory -/

/-- Annn: R130. -/
def Obligations.LoadIndexTakesTheAddress : Prop :=
  ∀ (nnn : Addr12) (s : State),
    ∃ t, exec (.ldI nnn) s = .next t ∧ t.i.toNat = nnn.toNat ∧ t.pc = s.pc + 2 ∧ SameBut [.index, .pc] s t

/-- Fx1E: I modulo 2^16, then VF whether the new I is above 0x0FFF (42_index_memory.md section 2; D17, and D11 for
x = F). -/
def Obligations.AddToIndexWrapsAndFlags : Prop :=
  ∀ (x : Reg) (s : State),
    ∃ t, exec (.addI x) s = .next t ∧ t.i.toNat = (s.i.toNat + (s.getV x).toNat) % 65536 ∧
      t.getV VF = (if t.i.toNat > 0x0FFF then 1 else 0) ∧ t.pc = s.pc + 2 ∧ RegsSameBut [VF] s t ∧
      SameBut [.regs, .index, .pc] s t

/-- Fx29: five times the whole of Vx (42_index_memory.md section 3; D18 for Vx above 15). -/
def Obligations.GlyphAddressIsFiveTimesVx : Prop :=
  ∀ (x : Reg) (s : State),
    ∃ t, exec (.ldF x) s = .next t ∧ t.i.toNat = 5 * (s.getV x).toNat ∧ t.pc = s.pc + 2 ∧ SameBut [.index, .pc] s t

/-- Fx33 with its three bytes in memory stores the decimal digits at I, I + 1, I + 2 and leaves every other byte
(42_index_memory.md section 4; the digit order is D14). -/
def Obligations.DecimalDigitsAreStored : Prop :=
  ∀ (x : Reg) (s : State), s.mem.wf s.config = true → s.base + 2 ≤ 0xFFF →
    ∃ t, exec (.ldB x) s = .next t ∧ (t.readByte s.base).toNat = (s.getV x).toNat / 100 ∧
      (t.readByte (s.base + 1)).toNat = (s.getV x).toNat / 10 % 10 ∧
      (t.readByte (s.base + 2)).toNat = (s.getV x).toNat % 10 ∧
      (∀ a, a < s.base ∨ s.base + 3 ≤ a → t.readByte a = s.readByte a) ∧ t.pc = s.pc + 2 ∧ SameBut [.memory, .pc] s t

/-- Fx55 with its bytes in memory stores V0 to Vx from I upward, moves I by x + 1, and leaves every other byte and all
registers (42_index_memory.md section 5; the range check is D5). -/
def Obligations.StoreWritesV0ToVx : Prop :=
  ∀ (x : Reg) (s : State), s.mem.wf s.config = true → s.base + x.val ≤ 0xFFF →
    ∃ t, exec (.storeRegs x) s = .next t ∧ (∀ j : Reg, j ≤ x → t.readByte (s.base + j.val) = s.getV j) ∧
      (∀ a, a < s.base ∨ s.base + x.val + 1 ≤ a → t.readByte a = s.readByte a) ∧
      t.i.toNat = s.i.toNat + x.val + 1 ∧ t.pc = s.pc + 2 ∧ SameBut [.memory, .index, .pc] s t

/-- Fx65 with its bytes in memory loads V0 to Vx from I upward, moves I by x + 1, and leaves memory and the registers above
Vx (42_index_memory.md section 6; the range check is D5). -/
def Obligations.LoadReadsV0ToVx : Prop :=
  ∀ (x : Reg) (s : State), s.base + x.val ≤ 0xFFF →
    ∃ t, exec (.loadRegs x) s = .next t ∧ (∀ j : Reg, j ≤ x → t.getV j = s.readByte (s.base + j.val)) ∧
      (∀ j : Reg, x < j → t.getV j = s.getV j) ∧ t.i.toNat = s.i.toNat + x.val + 1 ∧ t.pc = s.pc + 2 ∧
      SameBut [.regs, .index, .pc] s t

/-- Loading V0 to Vx back from the base they were stored at reproduces them (42_index_memory.md section 6, the source's
round-trip test): `u` is any state with the stored memory and I set back to the base. -/
def Obligations.LoadAfterStoreRestoresRegisters : Prop :=
  ∀ (x : Reg) (s u : State), s.mem.wf s.config = true → s.base + x.val ≤ 0xFFF → u.i = s.i →
    (∃ t, exec (.storeRegs x) s = .next t ∧ ∀ a, u.readByte a = t.readByte a) →
    ∃ t, exec (.loadRegs x) u = .next t ∧ ∀ j : Reg, j ≤ x → t.getV j = s.getV j

/-- Self-modifying code is exact: when Fx55 stores over the two bytes that follow it, the next fetch decodes the stored
registers (20_memory.md section 5). -/
def Obligations.StoredWordIsTheNextFetched : Prop :=
  ∀ (x j k : Reg) (s : State), s.mem.wf s.config = true → s.base + x.val ≤ 0xFFF → k.val = j.val + 1 → k ≤ x →
    s.pc.toNat + 2 = s.base + j.val →
    ∃ t, exec (.storeRegs x) s = .next t ∧ t.fetch? = some [s.getV j, s.getV k]

/-! ## Display -/

/-- 00E0: R140. -/
def Obligations.ClearBlanksTheDisplay : Prop :=
  ∀ s : State, ∃ t, exec .cls s = .next t ∧ (∀ r c, t.pixel r c = false) ∧ t.dirty = true ∧ t.pc = s.pc + 2 ∧
    SameBut [.frame, .dirty, .pc] s t

/-- Dxyn with its sprite in memory toggles exactly the covered pixels, sets VF to whether one went from set to unset, and
sets dirty, for every n and for x or y equal to F (43_display.md section 2; D12, and D13 for the bit order). -/
def Obligations.DrawTogglesTheSpritePixels : Prop :=
  ∀ (x y : Reg) (n : Nat) (s : State), (n = 0 ∨ s.base + n - 1 ≤ 0xFFF) →
    ∃ t, exec (.drw x y n) s = .next t ∧ (∀ r c, t.pixel r c = (s.pixel r c ^^ s.spriteCovers x y n r c)) ∧
      (t.getV VF = 1 ∧ (∃ r c, s.pixel r c = true ∧ t.pixel r c = false) ∨
        t.getV VF = 0 ∧ ¬ ∃ r c, s.pixel r c = true ∧ t.pixel r c = false) ∧
      t.dirty = true ∧ t.pc = s.pc + 2 ∧ RegsSameBut [VF] s t ∧ SameBut [.regs, .frame, .dirty, .pc] s t

/-- Drawing the same sprite twice at the same coordinates restores the buffer, and the second draw collides exactly when
the first turned a pixel on. The coordinates may move by themselves when x or y is F. The buffer is 43_display.md section 3;
the collision of the second draw is deduced from section 2, against the wording of section 3 (log 24). -/
def Obligations.DrawingTwiceRestoresTheDisplay : Prop :=
  ∀ (x y : Reg) (n : Nat) (s : State), (n = 0 ∨ s.base + n - 1 ≤ 0xFFF) →
    ∃ t, exec (.drw x y n) s = .next t ∧
      ((t.getV x).toNat % 64 = (s.getV x).toNat % 64 → (t.getV y).toNat % 32 = (s.getV y).toNat % 32 →
        ∃ u, exec (.drw x y n) t = .next u ∧ (∀ r c, u.pixel r c = s.pixel r c) ∧
          (u.getV VF = 1 ↔ ∃ r c, s.spriteCovers x y n r c = true ∧ s.pixel r c = false))

/-- EXPECTED TO FAIL: R142 as printed, "the second sets VF to 1 when the sprite has at least one unclipped set bit". R142 is
derived from R141, and by R141 a sprite whose pixels were all set before the first draw makes no collision in the second
(log 24). -/
def Obligations.SecondDrawCollidesWheneverASpritePixelIsInTheFrame : Prop :=
  ∀ (x y : Reg) (n : Nat) (s t u : State), (n = 0 ∨ s.base + n - 1 ≤ 0xFFF) →
    exec (.drw x y n) s = .next t → (t.getV x).toNat % 64 = (s.getV x).toNat % 64 →
    (t.getV y).toNat % 32 = (s.getV y).toNat % 32 → exec (.drw x y n) t = .next u →
    (∀ r c, u.pixel r c = s.pixel r c) ∧
      ((∃ r c, s.spriteCovers x y n r c = true) → u.getV VF = 1) ∧
      ((¬ ∃ r c, s.spriteCovers x y n r c = true) → u.getV VF = 0)

/-! ## Keypad -/

/-- Ex9E and ExA1 with a key number in Vx skip on the level of that key (44_keypad.md sections 1 and 2). -/
def Obligations.KeySkipsTestTheKey : Prop :=
  ∀ (x k : Reg) (s : State), (s.getV x).toNat = k.val →
    (∃ t, exec (.skp x) s = .next t ∧ t.pc = (if s.key[k] = true then s.pc + 4 else s.pc + 2) ∧ SameBut [.pc] s t) ∧
      ∃ t, exec (.sknp x) s = .next t ∧ t.pc = (if s.key[k] = false then s.pc + 4 else s.pc + 2) ∧ SameBut [.pc] s t

/-- Fx0A with a key down reports the least one and advances (44_keypad.md section 3; the least is D20). -/
def Obligations.KeyWaitReportsTheLeastKey : Prop :=
  ∀ (x k : Reg) (s : State), s.key[k] = true → (∀ j : Reg, j < k → s.key[j] = false) →
    ∃ t, exec (.ldVxK x) s = .next t ∧ (t.getV x).toNat = k.val ∧ t.pc = s.pc + 2 ∧ RegsSameBut [x] s t ∧
      SameBut [.regs, .pc] s t

/-- Fx0A with no key down changes nothing at all, PC included (44_keypad.md section 3). -/
def Obligations.KeyWaitPollsWithoutEffect : Prop :=
  ∀ (x : Reg) (s : State), (∀ k : Reg, s.key[k] = false) → exec (.ldVxK x) s = .next s

/-! ## Timers -/

/-- Fx07 reads DT, Fx15 writes DT, Fx18 writes ST (45_timer.md sections 1 to 3; the assignment is D15). -/
def Obligations.TimerInstructionsMoveTheirTimer : Prop :=
  ∀ (x : Reg) (s : State),
    (∃ t, exec (.ldVxDT x) s = .next t ∧ t.getV x = s.dt ∧ t.pc = s.pc + 2 ∧ RegsSameBut [x] s t ∧
        SameBut [.regs, .pc] s t) ∧
      (∃ t, exec (.ldDTVx x) s = .next t ∧ t.dt = s.getV x ∧ t.pc = s.pc + 2 ∧ SameBut [.delay, .pc] s t) ∧
      ∃ t, exec (.ldSTVx x) s = .next t ∧ t.st = s.getV x ∧ t.pc = s.pc + 2 ∧ SameBut [.sound, .pc] s t

/-- A timer tick takes one from each timer that is not 0, and nothing while paused or halted; it changes nothing else
(60_exceptions.md section 5; one tick for both timers is D22, the halted case D10). -/
def Obligations.TickCountsBothTimersDown : Prop :=
  ∀ s : State, s.nextEvent = .timerTick →
    ∃ t, step s = .next t ∧ SameBut [.delay, .sound, .events] s t ∧
      ((s.paused = true ∨ s.halted = true) → t.dt = s.dt ∧ t.st = s.st) ∧
      (s.paused = false → s.halted = false →
        t.dt.toNat = s.dt.toNat - 1 ∧ t.st.toNat = s.st.toNat - 1)

/-- `beep` is 1 exactly when ST is not 0, not paused and not halted, and its edges are those of 60_exceptions.md section 5: an
Fx18 that takes ST from 0 or to 0, the tick that takes ST from 1 to 0, the end and the start of a pause while ST is not 0,
and a halt while ST is not 0 (the level is D23). -/
def Obligations.BeepFollowsTheSoundTimer : Prop :=
  (∀ s : State, s.beep = true ↔ s.st ≠ 0 ∧ s.paused = false ∧ s.halted = false) ∧
    (∀ (x : Reg) (s : State), s.paused = false → s.halted = false →
      ∃ t, exec (.ldSTVx x) s = .next t ∧ (beepStart s t = true ↔ s.st = 0 ∧ s.getV x ≠ 0) ∧
        (beepStop s t = true ↔ s.st ≠ 0 ∧ s.getV x = 0)) ∧
    (∀ s : State, s.nextEvent = .timerTick → s.paused = false → s.halted = false →
      ∃ t, step s = .next t ∧ (beepStop s t = true ↔ s.st = 1) ∧ beepStart s t = false) ∧
    (∀ (s : State) (level : Bool), s.nextEvent = .setPaused level → s.halted = false →
      ∃ t, step s = .next t ∧ (beepStart s t = true ↔ s.st ≠ 0 ∧ s.paused = true ∧ level = false) ∧
        (beepStop s t = true ↔ s.st ≠ 0 ∧ s.paused = false ∧ level = true)) ∧
    ∀ (s t : State) (stepReq : Bool), s.nextEvent = .cpuCycle stepReq → s.halted = false → step s = .next t →
      t.halted = true → (beepStop s t = true ↔ s.st ≠ 0 ∧ s.paused = false) ∧ beepStart s t = false

/-! ## Random -/

/-- Cxkk: R160, whatever byte the generator gives; the generator advances once. -/
def Obligations.RandomIsTheDrawnByteUnderMask : Prop :=
  ∀ (x : Reg) (kk : Byte) (s : State),
    ∃ t, exec (.rnd x kk) s = .next t ∧ t.getV x = (s.config.rngNext s.rng).2 &&& kk ∧ t.rng = (s.config.rngNext s.rng).1 ∧
      t.pc = s.pc + 2 ∧ RegsSameBut [x] s t ∧ SameBut [.regs, .rng, .pc] s t

/-- With the deterministic source of 46_random.md section 2, a list of bytes consumed in order, the draw at place `k` of the
list is its byte there, and the next draw is at place `k + 1` (D21; its form as a table is log 7). -/
def Obligations.ByteSourceIsConsumedInOrder : Prop :=
  ∀ (x : Reg) (kk : Byte) (bytes : List Byte) (k : Nat) (b : Byte) (s : State),
    s.config.rngTable = Config.byteSource bytes → s.rng = k → bytes[k]? = some b →
    ∃ t, exec (.rnd x kk) s = .next t ∧ t.getV x = b &&& kk ∧ t.rng = k + 1

/-! ## The environment -/

/-- Each event of the environment changes its own part only (60_exceptions.md sections 3 and 7; D24, D30, D32). -/
def Obligations.EnvironmentEventsChangeTheirPart : Prop :=
  ∀ s : State,
    (∀ k down, s.nextEvent = .setKey k down →
        ∃ t, step s = .next t ∧ (∀ j : Reg, t.key[j] = if j = k then down else s.key[j]) ∧
          SameBut [.keys] s.dropEvent t) ∧
      (∀ level, s.nextEvent = .setPaused level → step s = .next { s.dropEvent with paused := level }) ∧
      (s.nextEvent = .renderAck → step s = .next { s.dropEvent with dirty := false }) ∧
      (s.nextEvent = .redraw → step s = .next s.dropEvent)

/-- `rom_load` before the first cycle writes the image at 0x200 upward and nothing else (20_memory.md sections 1 and 5,
70_reset_and_hazards.md section 2; D31). That a second load before the first cycle does the same is the model's choice
(log 25). -/
def Obligations.RomLoadWritesTheImage : Prop :=
  ∀ (s : State) (image : List Byte), s.nextEvent = .romLoad image → s.romOpen = true → image.length ≤ 3584 →
    s.mem.wf s.config = true →
    ∃ t, step s = .next t ∧
      (∀ a, t.readByte a = if 0x200 ≤ a ∧ a < 0x200 + image.length then image.getD (a - 0x200) 0 else s.readByte a) ∧
      SameBut [.memory, .events] s t

/-- An oversized ROM is the fatal load error, and a ROM load after the first cycle is refused (70_reset_and_hazards.md
section 2; D31, log 9). -/
def Obligations.BadRomLoadStops : Prop :=
  ∀ (s : State) (image : List Byte), s.nextEvent = .romLoad image →
    (s.romOpen = true → 3584 < image.length → step s = .fault .fatalLoadError) ∧
      (s.romOpen = false → step s = .refused .romLoadAfterFirstCycle)

/-- Once shutdown is the next event, a step changes nothing of the block and shutdown is the next event again: nothing follows
it (60_exceptions.md section 7; log 3). -/
def Obligations.NothingHappensAfterShutdown : Prop :=
  ∀ s : State, s.nextEvent = .shutdown → ∃ t, step s = .next t ∧ SameBut [.events] s t ∧ t.nextEvent = .shutdown

/-! ## Whole-machine rules -/

/-- No instruction writes a part of the state outside its row of the table of who writes what: memory only Fx33 and Fx55,
the stack only 2nnn and 00EE, the display only 00E0 and Dxyn, the timers, the generator and I only their own
instructions, the inputs none (10_state.md section 10). -/
def Obligations.InstructionsWriteOnlyTheirParts : Prop :=
  ∀ (i : Instr) (s t : State), exec i s = .next t → SameBut (partsOf i) s t

/-- No instruction writes a general register but its named destinations, VF among them only for the flag writers of the
table of VF (10_state.md section 1). -/
def Obligations.InstructionsWriteOnlyTheirRegisters : Prop :=
  ∀ (i : Instr) (s t : State), exec i s = .next t → RegsSameBut (destsOf i) s t

/-- PC ends at one of the values the PC column gives the instruction, or stays when the instruction faults (10_state.md
section 2, 30_encoding.md section 3; when it faults is 60_exceptions.md section 1, D4, D5, D19, log 16). -/
def Obligations.PcTakesAListedOutcome : Prop :=
  ∀ (i : Instr) (s t : State), exec i s = .next t →
    (∃ c, Raises i s c ∧ t.pc = s.pc) ∨ ((∀ c, ¬ Raises i s c) ∧ t.pc ∈ pcOutcomesOf i s)

/-- What a program computes does not depend on what it cannot read: `dirty`, ST, `paused` and the halt status (10_state.md
section 12, 43_display.md section 3). -/
def Obligations.ProgramsCannotObserveTheOutputs : Prop :=
  ∀ (i : Instr) (s : State) (d p h : Bool) (b : Byte) (c : HaltCause),
    ∃ t u, exec i s = .next t ∧ exec i { s with dirty := d, st := b, paused := p, halted := h, haltCause := c } = .next u ∧
      u = { t with dirty := u.dirty, st := u.st, paused := p, halted := u.halted, haltCause := u.haltCause }

/-- At the offered normal end no instruction cycle changes anything of the block (70_reset_and_hazards.md section 5,
D27). -/
def Obligations.NormalEndIsStable : Prop :=
  ∀ (s : State) (stepReq : Bool), s.EndedNormally → s.nextEvent = .cpuCycle stepReq →
    ∃ t, step s = .next t ∧ SameBut [.romOpen, .events] s t ∧ t.EndedNormally
end

