-- ==== Sys2Proof/Laws/State.lean ====
section
/-! SUPPORT. One lemma per field per update of State: what each named update leaves in each field. -/

namespace Sys2Proof.Machine

open Sys2Proof

variable (s : State)

/-! ### setV -/

@[simp] theorem State.setV_v (x : Reg) (b : Byte) : (s.setV x b).v = s.v.set x b := rfl
@[simp] theorem State.setV_i (x : Reg) (b : Byte) : (s.setV x b).i = s.i := rfl
@[simp] theorem State.setV_pc (x : Reg) (b : Byte) : (s.setV x b).pc = s.pc := rfl
@[simp] theorem State.setV_stack (x : Reg) (b : Byte) : (s.setV x b).stack = s.stack := rfl
@[simp] theorem State.setV_sp (x : Reg) (b : Byte) : (s.setV x b).sp = s.sp := rfl
@[simp] theorem State.setV_dt (x : Reg) (b : Byte) : (s.setV x b).dt = s.dt := rfl
@[simp] theorem State.setV_st (x : Reg) (b : Byte) : (s.setV x b).st = s.st := rfl
@[simp] theorem State.setV_fb (x : Reg) (b : Byte) : (s.setV x b).fb = s.fb := rfl
@[simp] theorem State.setV_dirty (x : Reg) (b : Byte) : (s.setV x b).dirty = s.dirty := rfl
@[simp] theorem State.setV_key (x : Reg) (b : Byte) : (s.setV x b).key = s.key := rfl
@[simp] theorem State.setV_paused (x : Reg) (b : Byte) : (s.setV x b).paused = s.paused := rfl
@[simp] theorem State.setV_rng (x : Reg) (b : Byte) : (s.setV x b).rng = s.rng := rfl
@[simp] theorem State.setV_halted (x : Reg) (b : Byte) : (s.setV x b).halted = s.halted := rfl
@[simp] theorem State.setV_haltCause (x : Reg) (b : Byte) : (s.setV x b).haltCause = s.haltCause := rfl
@[simp] theorem State.setV_mem (x : Reg) (b : Byte) : (s.setV x b).mem = s.mem := rfl
@[simp] theorem State.setV_romOpen (x : Reg) (b : Byte) : (s.setV x b).romOpen = s.romOpen := rfl
@[simp] theorem State.setV_events (x : Reg) (b : Byte) : (s.setV x b).events = s.events := rfl
@[simp] theorem State.setV_config (x : Reg) (b : Byte) : (s.setV x b).config = s.config := rfl
@[simp] theorem State.setV_rest (x : Reg) (b : Byte) : (s.setV x b).rest = s.rest := rfl
@[simp] theorem State.setV_readByte (x : Reg) (b : Byte) (k : Nat) : (s.setV x b).readByte k = s.readByte k := rfl

/-! ### setFlag -/

@[simp] theorem State.setFlag_v (c : Bool) : (s.setFlag c).v = s.v.set VF (flagByte c) := rfl
@[simp] theorem State.setFlag_i (c : Bool) : (s.setFlag c).i = s.i := rfl
@[simp] theorem State.setFlag_pc (c : Bool) : (s.setFlag c).pc = s.pc := rfl
@[simp] theorem State.setFlag_stack (c : Bool) : (s.setFlag c).stack = s.stack := rfl
@[simp] theorem State.setFlag_sp (c : Bool) : (s.setFlag c).sp = s.sp := rfl
@[simp] theorem State.setFlag_dt (c : Bool) : (s.setFlag c).dt = s.dt := rfl
@[simp] theorem State.setFlag_st (c : Bool) : (s.setFlag c).st = s.st := rfl
@[simp] theorem State.setFlag_fb (c : Bool) : (s.setFlag c).fb = s.fb := rfl
@[simp] theorem State.setFlag_dirty (c : Bool) : (s.setFlag c).dirty = s.dirty := rfl
@[simp] theorem State.setFlag_key (c : Bool) : (s.setFlag c).key = s.key := rfl
@[simp] theorem State.setFlag_paused (c : Bool) : (s.setFlag c).paused = s.paused := rfl
@[simp] theorem State.setFlag_rng (c : Bool) : (s.setFlag c).rng = s.rng := rfl
@[simp] theorem State.setFlag_halted (c : Bool) : (s.setFlag c).halted = s.halted := rfl
@[simp] theorem State.setFlag_haltCause (c : Bool) : (s.setFlag c).haltCause = s.haltCause := rfl
@[simp] theorem State.setFlag_mem (c : Bool) : (s.setFlag c).mem = s.mem := rfl
@[simp] theorem State.setFlag_romOpen (c : Bool) : (s.setFlag c).romOpen = s.romOpen := rfl
@[simp] theorem State.setFlag_events (c : Bool) : (s.setFlag c).events = s.events := rfl
@[simp] theorem State.setFlag_config (c : Bool) : (s.setFlag c).config = s.config := rfl
@[simp] theorem State.setFlag_rest (c : Bool) : (s.setFlag c).rest = s.rest := rfl
@[simp] theorem State.setFlag_readByte (c : Bool) (k : Nat) : (s.setFlag c).readByte k = s.readByte k := rfl

/-! ### setI -/

@[simp] theorem State.setI_v (w : Word) : (s.setI w).v = s.v := rfl
@[simp] theorem State.setI_i (w : Word) : (s.setI w).i = w := rfl
@[simp] theorem State.setI_pc (w : Word) : (s.setI w).pc = s.pc := rfl
@[simp] theorem State.setI_stack (w : Word) : (s.setI w).stack = s.stack := rfl
@[simp] theorem State.setI_sp (w : Word) : (s.setI w).sp = s.sp := rfl
@[simp] theorem State.setI_dt (w : Word) : (s.setI w).dt = s.dt := rfl
@[simp] theorem State.setI_st (w : Word) : (s.setI w).st = s.st := rfl
@[simp] theorem State.setI_fb (w : Word) : (s.setI w).fb = s.fb := rfl
@[simp] theorem State.setI_dirty (w : Word) : (s.setI w).dirty = s.dirty := rfl
@[simp] theorem State.setI_key (w : Word) : (s.setI w).key = s.key := rfl
@[simp] theorem State.setI_paused (w : Word) : (s.setI w).paused = s.paused := rfl
@[simp] theorem State.setI_rng (w : Word) : (s.setI w).rng = s.rng := rfl
@[simp] theorem State.setI_halted (w : Word) : (s.setI w).halted = s.halted := rfl
@[simp] theorem State.setI_haltCause (w : Word) : (s.setI w).haltCause = s.haltCause := rfl
@[simp] theorem State.setI_mem (w : Word) : (s.setI w).mem = s.mem := rfl
@[simp] theorem State.setI_romOpen (w : Word) : (s.setI w).romOpen = s.romOpen := rfl
@[simp] theorem State.setI_events (w : Word) : (s.setI w).events = s.events := rfl
@[simp] theorem State.setI_config (w : Word) : (s.setI w).config = s.config := rfl
@[simp] theorem State.setI_rest (w : Word) : (s.setI w).rest = s.rest := rfl
@[simp] theorem State.setI_getV (w : Word) (y : Reg) : (s.setI w).getV y = s.getV y := rfl
@[simp] theorem State.setI_readByte (w : Word) (k : Nat) : (s.setI w).readByte k = s.readByte k := rfl

/-! ### jumpTo -/

@[simp] theorem State.jumpTo_v (w : Word) : (s.jumpTo w).v = s.v := rfl
@[simp] theorem State.jumpTo_i (w : Word) : (s.jumpTo w).i = s.i := rfl
@[simp] theorem State.jumpTo_pc (w : Word) : (s.jumpTo w).pc = w := rfl
@[simp] theorem State.jumpTo_stack (w : Word) : (s.jumpTo w).stack = s.stack := rfl
@[simp] theorem State.jumpTo_sp (w : Word) : (s.jumpTo w).sp = s.sp := rfl
@[simp] theorem State.jumpTo_dt (w : Word) : (s.jumpTo w).dt = s.dt := rfl
@[simp] theorem State.jumpTo_st (w : Word) : (s.jumpTo w).st = s.st := rfl
@[simp] theorem State.jumpTo_fb (w : Word) : (s.jumpTo w).fb = s.fb := rfl
@[simp] theorem State.jumpTo_dirty (w : Word) : (s.jumpTo w).dirty = s.dirty := rfl
@[simp] theorem State.jumpTo_key (w : Word) : (s.jumpTo w).key = s.key := rfl
@[simp] theorem State.jumpTo_paused (w : Word) : (s.jumpTo w).paused = s.paused := rfl
@[simp] theorem State.jumpTo_rng (w : Word) : (s.jumpTo w).rng = s.rng := rfl
@[simp] theorem State.jumpTo_halted (w : Word) : (s.jumpTo w).halted = s.halted := rfl
@[simp] theorem State.jumpTo_haltCause (w : Word) : (s.jumpTo w).haltCause = s.haltCause := rfl
@[simp] theorem State.jumpTo_mem (w : Word) : (s.jumpTo w).mem = s.mem := rfl
@[simp] theorem State.jumpTo_romOpen (w : Word) : (s.jumpTo w).romOpen = s.romOpen := rfl
@[simp] theorem State.jumpTo_events (w : Word) : (s.jumpTo w).events = s.events := rfl
@[simp] theorem State.jumpTo_config (w : Word) : (s.jumpTo w).config = s.config := rfl
@[simp] theorem State.jumpTo_rest (w : Word) : (s.jumpTo w).rest = s.rest := rfl
@[simp] theorem State.jumpTo_getV (w : Word) (y : Reg) : (s.jumpTo w).getV y = s.getV y := rfl
@[simp] theorem State.jumpTo_readByte (w : Word) (k : Nat) : (s.jumpTo w).readByte k = s.readByte k := rfl

/-! ### advance -/

@[simp] theorem State.advance_v : s.advance.v = s.v := rfl
@[simp] theorem State.advance_i : s.advance.i = s.i := rfl
@[simp] theorem State.advance_pc : s.advance.pc = s.pc + 2 := rfl
@[simp] theorem State.advance_stack : s.advance.stack = s.stack := rfl
@[simp] theorem State.advance_sp : s.advance.sp = s.sp := rfl
@[simp] theorem State.advance_dt : s.advance.dt = s.dt := rfl
@[simp] theorem State.advance_st : s.advance.st = s.st := rfl
@[simp] theorem State.advance_fb : s.advance.fb = s.fb := rfl
@[simp] theorem State.advance_dirty : s.advance.dirty = s.dirty := rfl
@[simp] theorem State.advance_key : s.advance.key = s.key := rfl
@[simp] theorem State.advance_paused : s.advance.paused = s.paused := rfl
@[simp] theorem State.advance_rng : s.advance.rng = s.rng := rfl
@[simp] theorem State.advance_halted : s.advance.halted = s.halted := rfl
@[simp] theorem State.advance_haltCause : s.advance.haltCause = s.haltCause := rfl
@[simp] theorem State.advance_mem : s.advance.mem = s.mem := rfl
@[simp] theorem State.advance_romOpen : s.advance.romOpen = s.romOpen := rfl
@[simp] theorem State.advance_events : s.advance.events = s.events := rfl
@[simp] theorem State.advance_config : s.advance.config = s.config := rfl
@[simp] theorem State.advance_rest : s.advance.rest = s.rest := rfl
@[simp] theorem State.advance_getV (y : Reg) : s.advance.getV y = s.getV y := rfl
@[simp] theorem State.advance_readByte (k : Nat) : s.advance.readByte k = s.readByte k := rfl

/-! ### skipIf -/

@[simp] theorem State.skipIf_v (c : Bool) : (s.skipIf c).v = s.v := rfl
@[simp] theorem State.skipIf_i (c : Bool) : (s.skipIf c).i = s.i := rfl
@[simp] theorem State.skipIf_pc (c : Bool) : (s.skipIf c).pc = if c then s.pc + 4 else s.pc + 2 := rfl
@[simp] theorem State.skipIf_stack (c : Bool) : (s.skipIf c).stack = s.stack := rfl
@[simp] theorem State.skipIf_sp (c : Bool) : (s.skipIf c).sp = s.sp := rfl
@[simp] theorem State.skipIf_dt (c : Bool) : (s.skipIf c).dt = s.dt := rfl
@[simp] theorem State.skipIf_st (c : Bool) : (s.skipIf c).st = s.st := rfl
@[simp] theorem State.skipIf_fb (c : Bool) : (s.skipIf c).fb = s.fb := rfl
@[simp] theorem State.skipIf_dirty (c : Bool) : (s.skipIf c).dirty = s.dirty := rfl
@[simp] theorem State.skipIf_key (c : Bool) : (s.skipIf c).key = s.key := rfl
@[simp] theorem State.skipIf_paused (c : Bool) : (s.skipIf c).paused = s.paused := rfl
@[simp] theorem State.skipIf_rng (c : Bool) : (s.skipIf c).rng = s.rng := rfl
@[simp] theorem State.skipIf_halted (c : Bool) : (s.skipIf c).halted = s.halted := rfl
@[simp] theorem State.skipIf_haltCause (c : Bool) : (s.skipIf c).haltCause = s.haltCause := rfl
@[simp] theorem State.skipIf_mem (c : Bool) : (s.skipIf c).mem = s.mem := rfl
@[simp] theorem State.skipIf_romOpen (c : Bool) : (s.skipIf c).romOpen = s.romOpen := rfl
@[simp] theorem State.skipIf_events (c : Bool) : (s.skipIf c).events = s.events := rfl
@[simp] theorem State.skipIf_config (c : Bool) : (s.skipIf c).config = s.config := rfl
@[simp] theorem State.skipIf_rest (c : Bool) : (s.skipIf c).rest = s.rest := rfl
@[simp] theorem State.skipIf_getV (c : Bool) (y : Reg) : (s.skipIf c).getV y = s.getV y := rfl
@[simp] theorem State.skipIf_readByte (c : Bool) (k : Nat) : (s.skipIf c).readByte k = s.readByte k := rfl

/-! ### raise -/

@[simp] theorem State.raise_v (c : HaltCause) : (s.raise c).v = s.v := rfl
@[simp] theorem State.raise_i (c : HaltCause) : (s.raise c).i = s.i := rfl
@[simp] theorem State.raise_pc (c : HaltCause) : (s.raise c).pc = s.pc := rfl
@[simp] theorem State.raise_stack (c : HaltCause) : (s.raise c).stack = s.stack := rfl
@[simp] theorem State.raise_sp (c : HaltCause) : (s.raise c).sp = s.sp := rfl
@[simp] theorem State.raise_dt (c : HaltCause) : (s.raise c).dt = s.dt := rfl
@[simp] theorem State.raise_st (c : HaltCause) : (s.raise c).st = s.st := rfl
@[simp] theorem State.raise_fb (c : HaltCause) : (s.raise c).fb = s.fb := rfl
@[simp] theorem State.raise_dirty (c : HaltCause) : (s.raise c).dirty = s.dirty := rfl
@[simp] theorem State.raise_key (c : HaltCause) : (s.raise c).key = s.key := rfl
@[simp] theorem State.raise_paused (c : HaltCause) : (s.raise c).paused = s.paused := rfl
@[simp] theorem State.raise_rng (c : HaltCause) : (s.raise c).rng = s.rng := rfl
@[simp] theorem State.raise_halted (c : HaltCause) : (s.raise c).halted = true := rfl
@[simp] theorem State.raise_haltCause (c : HaltCause) : (s.raise c).haltCause = c := rfl
@[simp] theorem State.raise_mem (c : HaltCause) : (s.raise c).mem = s.mem := rfl
@[simp] theorem State.raise_romOpen (c : HaltCause) : (s.raise c).romOpen = s.romOpen := rfl
@[simp] theorem State.raise_events (c : HaltCause) : (s.raise c).events = s.events := rfl
@[simp] theorem State.raise_config (c : HaltCause) : (s.raise c).config = s.config := rfl
@[simp] theorem State.raise_rest (c : HaltCause) : (s.raise c).rest = s.rest := rfl
@[simp] theorem State.raise_getV (c : HaltCause) (y : Reg) : (s.raise c).getV y = s.getV y := rfl
@[simp] theorem State.raise_readByte (c : HaltCause) (k : Nat) : (s.raise c).readByte k = s.readByte k := rfl

/-! ### storeBytes -/

@[simp] theorem State.storeBytes_v (a : Nat) (bs : List Byte) : (s.storeBytes a bs).v = s.v := rfl
@[simp] theorem State.storeBytes_i (a : Nat) (bs : List Byte) : (s.storeBytes a bs).i = s.i := rfl
@[simp] theorem State.storeBytes_pc (a : Nat) (bs : List Byte) : (s.storeBytes a bs).pc = s.pc := rfl
@[simp] theorem State.storeBytes_stack (a : Nat) (bs : List Byte) : (s.storeBytes a bs).stack = s.stack := rfl
@[simp] theorem State.storeBytes_sp (a : Nat) (bs : List Byte) : (s.storeBytes a bs).sp = s.sp := rfl
@[simp] theorem State.storeBytes_dt (a : Nat) (bs : List Byte) : (s.storeBytes a bs).dt = s.dt := rfl
@[simp] theorem State.storeBytes_st (a : Nat) (bs : List Byte) : (s.storeBytes a bs).st = s.st := rfl
@[simp] theorem State.storeBytes_fb (a : Nat) (bs : List Byte) : (s.storeBytes a bs).fb = s.fb := rfl
@[simp] theorem State.storeBytes_dirty (a : Nat) (bs : List Byte) : (s.storeBytes a bs).dirty = s.dirty := rfl
@[simp] theorem State.storeBytes_key (a : Nat) (bs : List Byte) : (s.storeBytes a bs).key = s.key := rfl
@[simp] theorem State.storeBytes_paused (a : Nat) (bs : List Byte) : (s.storeBytes a bs).paused = s.paused := rfl
@[simp] theorem State.storeBytes_rng (a : Nat) (bs : List Byte) : (s.storeBytes a bs).rng = s.rng := rfl
@[simp] theorem State.storeBytes_halted (a : Nat) (bs : List Byte) : (s.storeBytes a bs).halted = s.halted := rfl
@[simp] theorem State.storeBytes_haltCause (a : Nat) (bs : List Byte) : (s.storeBytes a bs).haltCause = s.haltCause := rfl
@[simp] theorem State.storeBytes_mem (a : Nat) (bs : List Byte) : (s.storeBytes a bs).mem = s.mem.writeBytes s.config a bs := rfl
@[simp] theorem State.storeBytes_romOpen (a : Nat) (bs : List Byte) : (s.storeBytes a bs).romOpen = s.romOpen := rfl
@[simp] theorem State.storeBytes_events (a : Nat) (bs : List Byte) : (s.storeBytes a bs).events = s.events := rfl
@[simp] theorem State.storeBytes_config (a : Nat) (bs : List Byte) : (s.storeBytes a bs).config = s.config := rfl
@[simp] theorem State.storeBytes_rest (a : Nat) (bs : List Byte) : (s.storeBytes a bs).rest = s.rest := rfl
@[simp] theorem State.storeBytes_getV (a : Nat) (bs : List Byte) (y : Reg) : (s.storeBytes a bs).getV y = s.getV y := rfl

/-! ### dropEvent -/

@[simp] theorem State.dropEvent_v : s.dropEvent.v = s.v := rfl
@[simp] theorem State.dropEvent_i : s.dropEvent.i = s.i := rfl
@[simp] theorem State.dropEvent_pc : s.dropEvent.pc = s.pc := rfl
@[simp] theorem State.dropEvent_stack : s.dropEvent.stack = s.stack := rfl
@[simp] theorem State.dropEvent_sp : s.dropEvent.sp = s.sp := rfl
@[simp] theorem State.dropEvent_dt : s.dropEvent.dt = s.dt := rfl
@[simp] theorem State.dropEvent_st : s.dropEvent.st = s.st := rfl
@[simp] theorem State.dropEvent_fb : s.dropEvent.fb = s.fb := rfl
@[simp] theorem State.dropEvent_dirty : s.dropEvent.dirty = s.dirty := rfl
@[simp] theorem State.dropEvent_key : s.dropEvent.key = s.key := rfl
@[simp] theorem State.dropEvent_paused : s.dropEvent.paused = s.paused := rfl
@[simp] theorem State.dropEvent_rng : s.dropEvent.rng = s.rng := rfl
@[simp] theorem State.dropEvent_halted : s.dropEvent.halted = s.halted := rfl
@[simp] theorem State.dropEvent_haltCause : s.dropEvent.haltCause = s.haltCause := rfl
@[simp] theorem State.dropEvent_mem : s.dropEvent.mem = s.mem := rfl
@[simp] theorem State.dropEvent_romOpen : s.dropEvent.romOpen = s.romOpen := rfl
@[simp] theorem State.dropEvent_events : s.dropEvent.events = s.events.tail := rfl
@[simp] theorem State.dropEvent_config : s.dropEvent.config = s.config := rfl
@[simp] theorem State.dropEvent_rest : s.dropEvent.rest = if s.events.isEmpty then s.rest.next else s.rest := rfl
@[simp] theorem State.dropEvent_getV (y : Reg) : s.dropEvent.getV y = s.getV y := rfl
@[simp] theorem State.dropEvent_readByte (k : Nat) : s.dropEvent.readByte k = s.readByte k := rfl

/-! ### setThenClearFlag -/

@[simp] theorem State.setThenClearFlag_v (x : Reg) (b : Byte) : (s.setThenClearFlag x b).v = (s.v.set x b).set VF (flagByte false) := rfl
@[simp] theorem State.setThenClearFlag_i (x : Reg) (b : Byte) : (s.setThenClearFlag x b).i = s.i := rfl
@[simp] theorem State.setThenClearFlag_pc (x : Reg) (b : Byte) : (s.setThenClearFlag x b).pc = s.pc := rfl
@[simp] theorem State.setThenClearFlag_stack (x : Reg) (b : Byte) : (s.setThenClearFlag x b).stack = s.stack := rfl
@[simp] theorem State.setThenClearFlag_sp (x : Reg) (b : Byte) : (s.setThenClearFlag x b).sp = s.sp := rfl
@[simp] theorem State.setThenClearFlag_dt (x : Reg) (b : Byte) : (s.setThenClearFlag x b).dt = s.dt := rfl
@[simp] theorem State.setThenClearFlag_st (x : Reg) (b : Byte) : (s.setThenClearFlag x b).st = s.st := rfl
@[simp] theorem State.setThenClearFlag_fb (x : Reg) (b : Byte) : (s.setThenClearFlag x b).fb = s.fb := rfl
@[simp] theorem State.setThenClearFlag_dirty (x : Reg) (b : Byte) : (s.setThenClearFlag x b).dirty = s.dirty := rfl
@[simp] theorem State.setThenClearFlag_key (x : Reg) (b : Byte) : (s.setThenClearFlag x b).key = s.key := rfl
@[simp] theorem State.setThenClearFlag_paused (x : Reg) (b : Byte) : (s.setThenClearFlag x b).paused = s.paused := rfl
@[simp] theorem State.setThenClearFlag_rng (x : Reg) (b : Byte) : (s.setThenClearFlag x b).rng = s.rng := rfl
@[simp] theorem State.setThenClearFlag_halted (x : Reg) (b : Byte) : (s.setThenClearFlag x b).halted = s.halted := rfl
@[simp] theorem State.setThenClearFlag_haltCause (x : Reg) (b : Byte) : (s.setThenClearFlag x b).haltCause = s.haltCause := rfl
@[simp] theorem State.setThenClearFlag_mem (x : Reg) (b : Byte) : (s.setThenClearFlag x b).mem = s.mem := rfl
@[simp] theorem State.setThenClearFlag_romOpen (x : Reg) (b : Byte) : (s.setThenClearFlag x b).romOpen = s.romOpen := rfl
@[simp] theorem State.setThenClearFlag_events (x : Reg) (b : Byte) : (s.setThenClearFlag x b).events = s.events := rfl
@[simp] theorem State.setThenClearFlag_config (x : Reg) (b : Byte) : (s.setThenClearFlag x b).config = s.config := rfl
@[simp] theorem State.setThenClearFlag_rest (x : Reg) (b : Byte) : (s.setThenClearFlag x b).rest = s.rest := rfl
@[simp] theorem State.setThenClearFlag_readByte (x : Reg) (b : Byte) (k : Nat) : (s.setThenClearFlag x b).readByte k = s.readByte k := rfl

/-! ### advanceI -/

@[simp] theorem State.advanceI_v (x : Reg) : (s.advanceI x).v = s.v := rfl
@[simp] theorem State.advanceI_i (x : Reg) : (s.advanceI x).i = s.i + BitVec.ofNat 16 (x.val + 1) := rfl
@[simp] theorem State.advanceI_pc (x : Reg) : (s.advanceI x).pc = s.pc := rfl
@[simp] theorem State.advanceI_stack (x : Reg) : (s.advanceI x).stack = s.stack := rfl
@[simp] theorem State.advanceI_sp (x : Reg) : (s.advanceI x).sp = s.sp := rfl
@[simp] theorem State.advanceI_dt (x : Reg) : (s.advanceI x).dt = s.dt := rfl
@[simp] theorem State.advanceI_st (x : Reg) : (s.advanceI x).st = s.st := rfl
@[simp] theorem State.advanceI_fb (x : Reg) : (s.advanceI x).fb = s.fb := rfl
@[simp] theorem State.advanceI_dirty (x : Reg) : (s.advanceI x).dirty = s.dirty := rfl
@[simp] theorem State.advanceI_key (x : Reg) : (s.advanceI x).key = s.key := rfl
@[simp] theorem State.advanceI_paused (x : Reg) : (s.advanceI x).paused = s.paused := rfl
@[simp] theorem State.advanceI_rng (x : Reg) : (s.advanceI x).rng = s.rng := rfl
@[simp] theorem State.advanceI_halted (x : Reg) : (s.advanceI x).halted = s.halted := rfl
@[simp] theorem State.advanceI_haltCause (x : Reg) : (s.advanceI x).haltCause = s.haltCause := rfl
@[simp] theorem State.advanceI_mem (x : Reg) : (s.advanceI x).mem = s.mem := rfl
@[simp] theorem State.advanceI_romOpen (x : Reg) : (s.advanceI x).romOpen = s.romOpen := rfl
@[simp] theorem State.advanceI_events (x : Reg) : (s.advanceI x).events = s.events := rfl
@[simp] theorem State.advanceI_config (x : Reg) : (s.advanceI x).config = s.config := rfl
@[simp] theorem State.advanceI_rest (x : Reg) : (s.advanceI x).rest = s.rest := rfl
@[simp] theorem State.advanceI_getV (x : Reg) (y : Reg) : (s.advanceI x).getV y = s.getV y := rfl
@[simp] theorem State.advanceI_readByte (x : Reg) (k : Nat) : (s.advanceI x).readByte k = s.readByte k := rfl

/-! ### setRegsUpTo -/

@[simp] theorem State.setRegsUpTo_i (x : Reg) (bs : List Byte) : (s.setRegsUpTo x bs).i = s.i := rfl
@[simp] theorem State.setRegsUpTo_pc (x : Reg) (bs : List Byte) : (s.setRegsUpTo x bs).pc = s.pc := rfl
@[simp] theorem State.setRegsUpTo_stack (x : Reg) (bs : List Byte) : (s.setRegsUpTo x bs).stack = s.stack := rfl
@[simp] theorem State.setRegsUpTo_sp (x : Reg) (bs : List Byte) : (s.setRegsUpTo x bs).sp = s.sp := rfl
@[simp] theorem State.setRegsUpTo_dt (x : Reg) (bs : List Byte) : (s.setRegsUpTo x bs).dt = s.dt := rfl
@[simp] theorem State.setRegsUpTo_st (x : Reg) (bs : List Byte) : (s.setRegsUpTo x bs).st = s.st := rfl
@[simp] theorem State.setRegsUpTo_fb (x : Reg) (bs : List Byte) : (s.setRegsUpTo x bs).fb = s.fb := rfl
@[simp] theorem State.setRegsUpTo_dirty (x : Reg) (bs : List Byte) : (s.setRegsUpTo x bs).dirty = s.dirty := rfl
@[simp] theorem State.setRegsUpTo_key (x : Reg) (bs : List Byte) : (s.setRegsUpTo x bs).key = s.key := rfl
@[simp] theorem State.setRegsUpTo_paused (x : Reg) (bs : List Byte) : (s.setRegsUpTo x bs).paused = s.paused := rfl
@[simp] theorem State.setRegsUpTo_rng (x : Reg) (bs : List Byte) : (s.setRegsUpTo x bs).rng = s.rng := rfl
@[simp] theorem State.setRegsUpTo_halted (x : Reg) (bs : List Byte) : (s.setRegsUpTo x bs).halted = s.halted := rfl
@[simp] theorem State.setRegsUpTo_haltCause (x : Reg) (bs : List Byte) : (s.setRegsUpTo x bs).haltCause = s.haltCause := rfl
@[simp] theorem State.setRegsUpTo_mem (x : Reg) (bs : List Byte) : (s.setRegsUpTo x bs).mem = s.mem := rfl
@[simp] theorem State.setRegsUpTo_romOpen (x : Reg) (bs : List Byte) : (s.setRegsUpTo x bs).romOpen = s.romOpen := rfl
@[simp] theorem State.setRegsUpTo_events (x : Reg) (bs : List Byte) : (s.setRegsUpTo x bs).events = s.events := rfl
@[simp] theorem State.setRegsUpTo_config (x : Reg) (bs : List Byte) : (s.setRegsUpTo x bs).config = s.config := rfl
@[simp] theorem State.setRegsUpTo_rest (x : Reg) (bs : List Byte) : (s.setRegsUpTo x bs).rest = s.rest := rfl
@[simp] theorem State.setRegsUpTo_readByte (x : Reg) (bs : List Byte) (k : Nat) : (s.setRegsUpTo x bs).readByte k = s.readByte k := rfl

/-! ### Registers -/

/-- Register read after write. -/
theorem State.getV_setV (x y : Reg) (b : Byte) : (s.setV x b).getV y = if y = x then b else s.getV y := by
  have h : x.val = y.val ↔ y = x := by rw [Fin.ext_iff]; exact eq_comm
  simp [State.getV, State.setV, Vector.getElem_set, h]

@[simp] theorem State.getV_setV_same (x : Reg) (b : Byte) : (s.setV x b).getV x = b := by
  simp [State.getV_setV]

theorem State.getV_setV_ne {x y : Reg} (h : y ≠ x) (b : Byte) : (s.setV x b).getV y = s.getV y := by
  simp [State.getV_setV, h]

theorem State.getV_setFlag (y : Reg) (c : Bool) :
    (s.setFlag c).getV y = if y = VF then flagByte c else s.getV y := State.getV_setV s VF y (flagByte c)

theorem State.getV_setThenClearFlag (x y : Reg) (b : Byte) :
    (s.setThenClearFlag x b).getV y = if y = VF then 0 else if y = x then b else s.getV y := by
  simp only [State.setThenClearFlag, State.getV_setFlag, State.getV_setV]
  rfl

/-! ### Frames -/

theorem SameBut.refl (parts : List Part) : SameBut parts s s := by constructor <;> simp

theorem SameBut.trans {parts : List Part} {s t u : State} (h₁ : SameBut parts s t) (h₂ : SameBut parts t u) :
    SameBut parts s u where
  config := h₂.config.trans h₁.config
  regs := fun h => (h₂.regs h).trans (h₁.regs h)
  index := fun h => (h₂.index h).trans (h₁.index h)
  pc := fun h => (h₂.pc h).trans (h₁.pc h)
  stack := fun h => ⟨(h₂.stack h).1.trans (h₁.stack h).1, (h₂.stack h).2.trans (h₁.stack h).2⟩
  delay := fun h => (h₂.delay h).trans (h₁.delay h)
  sound := fun h => (h₂.sound h).trans (h₁.sound h)
  frame := fun h => (h₂.frame h).trans (h₁.frame h)
  dirty := fun h => (h₂.dirty h).trans (h₁.dirty h)
  keys := fun h => (h₂.keys h).trans (h₁.keys h)
  paused := fun h => (h₂.paused h).trans (h₁.paused h)
  rng := fun h => (h₂.rng h).trans (h₁.rng h)
  halt := fun h => ⟨(h₂.halt h).1.trans (h₁.halt h).1, (h₂.halt h).2.trans (h₁.halt h).2⟩
  memory := fun h a => (h₂.memory h a).trans (h₁.memory h a)
  romOpen := fun h => (h₂.romOpen h).trans (h₁.romOpen h)
  events := fun h => ⟨(h₂.events h).1.trans (h₁.events h).1, (h₂.events h).2.trans (h₁.events h).2⟩

theorem RegsSameBut.of_v_eq {xs : List Reg} {s t : State} (h : t.v = s.v) : RegsSameBut xs s t := by
  intro j _
  simp [State.getV, h]

end Sys2Proof.Machine
end

