-- ==== Sys2Proof/Laws/Memory.lean ====
section
/-! SUPPORT. Memory: the canonical form is kept by every write, a read after a write gives what was written there and what
stood there elsewhere, and canonical memories that read alike are equal. -/

namespace Sys2Proof.Machine

open Sys2Proof

variable {cfg : Config}

theorem Memory.wfFrom_cons {lo k : Nat} {c : Byte} {m : Memory} :
    Memory.wfFrom cfg lo ((k, c) :: m) = true ↔
      lo ≤ k ∧ k < Config.memSize ∧ c ≠ cfg.resetByte k ∧ Memory.wfFrom cfg (k + 1) m = true := by
  simp [Memory.wfFrom, and_assoc]

theorem Memory.wfFrom_mono {lo lo' : Nat} {m : Memory} (h : lo' ≤ lo) (hm : Memory.wfFrom cfg lo m = true) :
    Memory.wfFrom cfg lo' m = true := by
  cases m with
  | nil => rfl
  | cons p m =>
    obtain ⟨k, c⟩ := p
    rw [Memory.wfFrom_cons] at hm ⊢
    exact ⟨by omega, hm.2⟩

/-- Below its first listed address a canonical memory reads as reset left it. -/
theorem Memory.read_below {m : Memory} : ∀ {lo a : Nat}, Memory.wfFrom cfg lo m = true → a < lo →
    Memory.read cfg m a = cfg.resetByte a := by
  induction m with
  | nil => intros; rfl
  | cons p m ih =>
    obtain ⟨k, c⟩ := p
    intro lo a hm ha
    rw [Memory.wfFrom_cons] at hm
    rw [Memory.read, if_neg (by omega)]
    exact ih hm.2.2.2 (by omega)

theorem Memory.wfFrom_write {m : Memory} : ∀ {lo a : Nat} (b : Byte), Memory.wfFrom cfg lo m = true → lo ≤ a →
    a < Config.memSize → Memory.wfFrom cfg lo (Memory.write cfg m a b) = true := by
  induction m with
  | nil =>
    intro lo a b _ ha hs
    by_cases hb : b = cfg.resetByte a <;> simp [Memory.write, Memory.wfFrom, hb, ha, hs]
  | cons p m ih =>
    obtain ⟨k, c⟩ := p
    intro lo a b hm ha hs
    have hm' := Memory.wfFrom_cons.1 hm
    unfold Memory.write
    split
    · split
      · exact hm
      · exact Memory.wfFrom_cons.2 ⟨ha, hs, by assumption, Memory.wfFrom_cons.2 ⟨by omega, hm'.2⟩⟩
    · split
      · split
        · exact Memory.wfFrom_mono (by omega) hm'.2.2.2
        · exact Memory.wfFrom_cons.2 ⟨ha, hs, by assumption, by
            have : a = k := by assumption
            exact this ▸ hm'.2.2.2⟩
      · exact Memory.wfFrom_cons.2 ⟨hm'.1, hm'.2.1, hm'.2.2.1, ih b hm'.2.2.2 (by omega) hs⟩

/-- A write to an existing address keeps the canonical form. -/
theorem Memory.wf_write {m : Memory} (hm : m.wf cfg = true) {a : Nat} (ha : a < Config.memSize) (b : Byte) :
    (m.write cfg a b).wf cfg = true := Memory.wfFrom_write b hm (Nat.zero_le a) ha

/-- Writing bytes inside memory keeps the canonical form. -/
theorem Memory.wf_writeBytes {bs : List Byte} : ∀ {m : Memory} {a : Nat}, m.wf cfg = true →
    a + bs.length ≤ Config.memSize → (m.writeBytes cfg a bs).wf cfg = true := by
  induction bs with
  | nil => intro m a hm _; exact hm
  | cons b bs ih =>
    intro m a hm ha
    simp only [List.length_cons] at ha
    exact ih (Memory.wf_write hm (by omega) b) (by omega)

theorem Memory.read_write_from {m : Memory} : ∀ {lo : Nat} (a k : Nat) (b : Byte), Memory.wfFrom cfg lo m = true →
    Memory.read cfg (Memory.write cfg m a b) k = if k = a then b else Memory.read cfg m k := by
  induction m with
  | nil =>
    intro lo a k b _
    by_cases hb : b = cfg.resetByte a <;> by_cases hk : k = a <;> simp [Memory.write, Memory.read, hb, hk]
  | cons p m ih =>
    obtain ⟨k₀, c⟩ := p
    intro lo a k b hm
    have hm' := Memory.wfFrom_cons.1 hm
    unfold Memory.write
    split
    · split
      · by_cases hk : k = a
        · rw [if_pos hk, Memory.read_below (Memory.wfFrom_cons.2 ⟨Nat.le_refl k₀, hm'.2⟩) (by omega), hk]
          exact Eq.symm (by assumption)
        · rw [if_neg hk]
      · by_cases hk : k = a <;> simp [Memory.read, hk]
    · split
      · rename_i h₁ h₂
        subst h₂
        split
        · rename_i hb
          by_cases hk : k = a
          · rw [if_pos hk, Memory.read_below hm'.2.2.2 (by omega), hk, hb]
          · rw [if_neg hk, Memory.read, if_neg hk]
        · by_cases hk : k = a <;> simp [Memory.read, hk]
      · rename_i h₁ h₂
        rw [Memory.read, Memory.read]
        by_cases hk : k = k₀
        · rw [if_pos hk, if_pos hk, if_neg (by omega)]
        · rw [if_neg hk, if_neg hk]
          exact ih a k b hm'.2.2.2

/-- Read after write. -/
theorem Memory.read_write {m : Memory} (hm : m.wf cfg = true) (a k : Nat) (b : Byte) :
    (m.write cfg a b).read cfg k = if k = a then b else m.read cfg k := Memory.read_write_from a k b hm

/-- Read after a write of several bytes inside memory: the byte written, or what stood there. -/
theorem Memory.read_writeBytes {bs : List Byte} : ∀ {m : Memory} {a : Nat}, m.wf cfg = true →
    a + bs.length ≤ Config.memSize → ∀ k, (m.writeBytes cfg a bs).read cfg k =
      if a ≤ k ∧ k < a + bs.length then bs.getD (k - a) 0 else m.read cfg k := by
  induction bs with
  | nil =>
    intro m a _ _ k
    rw [if_neg (by simp), Memory.writeBytes]
  | cons b bs ih =>
    intro m a hm ha k
    simp only [List.length_cons] at ha ⊢
    rw [Memory.writeBytes, ih (Memory.wf_write hm (by omega) b) (by omega), Memory.read_write hm]
    by_cases h₁ : k = a
    · subst h₁
      rw [if_neg (by omega), if_pos rfl, if_pos (by omega)]
      simp
    · by_cases h₂ : a + 1 ≤ k ∧ k < a + 1 + bs.length
      · rw [if_pos h₂, if_pos (by omega)]
        obtain ⟨j, rfl⟩ : ∃ j, k = a + 1 + j := ⟨k - (a + 1), by omega⟩
        rw [show a + 1 + j - a = j + 1 by omega, show a + 1 + j - (a + 1) = j by omega]
        simp
      · rw [if_neg h₂, if_neg h₁, if_neg (by omega)]

theorem Memory.ext_from {m : Memory} : ∀ {m' : Memory} {lo lo' : Nat}, Memory.wfFrom cfg lo m = true →
    Memory.wfFrom cfg lo' m' = true → (∀ a, m.read cfg a = m'.read cfg a) → m = m' := by
  induction m with
  | nil =>
    intro m' lo lo' _ hm' h
    cases m' with
    | nil => rfl
    | cons p m' =>
      obtain ⟨k, c⟩ := p
      have := Memory.wfFrom_cons.1 hm'
      have hk := h k
      simp [Memory.read] at hk
      exact absurd hk.symm this.2.2.1
  | cons p m ih =>
    obtain ⟨k, c⟩ := p
    intro m' lo lo' hm hm' h
    have w := Memory.wfFrom_cons.1 hm
    cases m' with
    | nil =>
      have hk := h k
      simp [Memory.read] at hk
      exact absurd hk w.2.2.1
    | cons p' m' =>
      obtain ⟨k', c'⟩ := p'
      have w' := Memory.wfFrom_cons.1 hm'
      have hkk : k = k' := by
        rcases Nat.lt_trichotomy k k' with hlt | heq | hgt
        · have hk := h k
          rw [Memory.read, if_pos rfl, Memory.read, if_neg (by omega), Memory.read_below w'.2.2.2 (by omega)] at hk
          exact absurd hk w.2.2.1
        · exact heq
        · have hk := h k'
          rw [Memory.read, if_neg (by omega), Memory.read_below w.2.2.2 (by omega), Memory.read, if_pos rfl] at hk
          exact absurd hk.symm w'.2.2.1
      subst hkk
      have hc : c = c' := by simpa [Memory.read] using h k
      subst hc
      refine congrArg _ (ih w.2.2.2 w'.2.2.2 fun a => ?_)
      by_cases ha : a = k
      · subst ha
        rw [Memory.read_below w.2.2.2 (by omega), Memory.read_below w'.2.2.2 (by omega)]
      · have := h a
        rwa [Memory.read, if_neg ha, Memory.read, if_neg ha] at this

/-- Canonical memories that read alike are the same list. -/
theorem Memory.ext {m m' : Memory} (hm : m.wf cfg = true) (hm' : m'.wf cfg = true) (h : ∀ a, m.read cfg a = m'.read cfg a) : m = m' :=
  Memory.ext_from hm hm' h

@[simp] theorem Memory.length_readBytes (m : Memory) : ∀ (n a : Nat), (m.readBytes cfg a n).length = n
  | 0, _ => rfl
  | n + 1, a => by simp [Memory.readBytes, Memory.length_readBytes m n (a + 1)]

/-- The bytes read are those of ascending addresses. -/
theorem Memory.getElem?_readBytes (m : Memory) : ∀ (n a j : Nat), j < n → (m.readBytes cfg a n)[j]? = some (m.read cfg (a + j))
  | 0, _, _, h => absurd h (Nat.not_lt_zero _)
  | n + 1, a, 0, _ => by simp [Memory.readBytes]
  | n + 1, a, j + 1, h => by
    simp only [Memory.readBytes, List.getElem?_cons_succ]
    rw [Memory.getElem?_readBytes m n (a + 1) j (by omega), show a + 1 + j = a + (j + 1) by omega]

/-- Read after a store of bytes inside memory. -/
theorem State.readByte_storeBytes {s : State} (hm : s.mem.wf s.config = true) {a : Nat} {bs : List Byte}
    (ha : a + bs.length ≤ Config.memSize) (k : Nat) :
    (s.storeBytes a bs).readByte k = if a ≤ k ∧ k < a + bs.length then bs.getD (k - a) 0 else s.readByte k :=
  Memory.read_writeBytes hm ha k

/-- A store of bytes inside memory keeps the canonical form. -/
theorem State.wf_storeBytes {s : State} (hm : s.mem.wf s.config = true) {a : Nat} {bs : List Byte}
    (ha : a + bs.length ≤ Config.memSize) : (s.storeBytes a bs).mem.wf s.config = true := Memory.wf_writeBytes hm ha

end Sys2Proof.Machine
end

