-- ==== Sys2Proof/Laws/Ops.lean ====
section
/-! SUPPORT. One lemma per shared operation: everything it can do. -/

namespace Sys2Proof

/-! ### The generator of a configuration -/

theorem Config.rngNext_supplied {cfg : Config} {r : Config.RngState} {p : Config.RngState × Byte}
    (h : cfg.rngTable[r]? = some p) : cfg.rngNext r = p := by simp [Config.rngNext, h]

theorem Config.rngNext_open {cfg : Config} {r : Config.RngState} (h : cfg.rngTable[r]? = none) :
    cfg.rngNext r = Config.freeRngNext r := by simp [Config.rngNext, h]

@[simp] theorem Config.byteSource_getElem? (bytes : List Byte) (k : Nat) :
    (Config.byteSource bytes)[k]? = bytes[k]?.map (fun b => (k + 1, b)) := by simp [Config.byteSource]

end Sys2Proof

namespace Sys2Proof.Machine

open Sys2Proof

variable {s t : State}

/-! ### The stack -/

theorem State.push?_none (w : Word) : s.push? w = none ↔ s.sp.val = 16 := by
  unfold State.push?
  split <;> simp <;> omega

/-- A push that succeeds writes the first unused entry and counts it; nothing else changes. -/
theorem State.push?_some {w : Word} (h : s.push? w = some t) :
    s.sp.val < 16 ∧ t.sp.val = s.sp.val + 1 ∧
      (∀ k : Fin 16, t.stack[k] = if k.val = s.sp.val then w else s.stack[k]) ∧
      t = { s with stack := t.stack, sp := t.sp } := by
  unfold State.push? at h
  split at h
  · rename_i hlt
    cases h
    refine ⟨hlt, rfl, fun k => ?_, rfl⟩
    simp [Vector.getElem_set, eq_comm]
  · cases h

theorem State.pop?_none : s.pop? = none ↔ s.sp.val = 0 := by
  unfold State.pop?
  split <;> simp_all

/-- A pop that succeeds gives the last entry in use and stops counting it; nothing else changes. -/
theorem State.pop?_some {w : Word} (h : s.pop? = some (w, t)) :
    ∃ k : Fin 16, k.val + 1 = s.sp.val ∧ w = s.stack[k] ∧ t.sp.val = k.val ∧ t = { s with sp := t.sp } := by
  unfold State.pop? at h
  split at h
  · cases h
  · rename_i hne
    cases h
    exact ⟨⟨s.sp.val - 1, by omega⟩, by simp; omega, rfl, rfl, rfl⟩

/-! ### Ranges and fetch -/

theorem State.outOfRange_false {m : Nat} : s.outOfRange m = false ↔ m = 0 ∨ s.base + m ≤ Config.memSize := by
  simp only [State.outOfRange, Config.memSize, Bool.and_eq_false_iff, decide_eq_false_iff_not]
  omega

theorem State.outOfRange_true {m : Nat} : s.outOfRange m = true ↔ m ≠ 0 ∧ Config.memSize < s.base + m := by
  simp only [State.outOfRange, Config.memSize, Bool.and_eq_true, decide_eq_true_eq]
  omega

theorem State.fetch?_none : s.fetch? = none ↔ 0x0FFE < s.pc.toNat := by
  unfold State.fetch?
  split <;> simp <;> omega

theorem State.fetch?_some {bs : List Byte} (h : s.fetch? = some bs) :
    s.pc.toNat ≤ 0x0FFE ∧ bs = [s.readByte s.pc.toNat, s.readByte (s.pc.toNat + 1)] := by
  unfold State.fetch? at h
  split at h
  · cases h
    exact ⟨by assumption, rfl⟩
  · cases h

/-! ### Keys -/

theorem State.keyOf?_none {x : Reg} : s.keyOf? x = none ↔ 15 < (s.getV x).toNat := by
  unfold State.keyOf?
  split <;> simp <;> omega

theorem State.keyOf?_some {x k : Reg} (h : (s.getV x).toNat = k.val) : s.keyOf? x = some s.key[k] := by
  unfold State.keyOf?
  rw [dif_pos (by omega)]
  simp [h]

theorem State.leastKey?_none : s.leastKey? = none ↔ ∀ k : Reg, s.key[k] = false := by
  simp [State.leastKey?, List.find?_eq_none]

/-- The key reported is down and every lower key is up. -/
theorem State.leastKey?_some {k : Reg} (h : s.leastKey? = some k) :
    s.key[k] = true ∧ ∀ j : Reg, j < k → s.key[j] = false := by
  unfold State.leastKey? at h
  rw [List.find?_eq_some_iff_getElem] at h
  obtain ⟨hk, i, hi, hik, hlt⟩ := h
  refine ⟨by simpa using hk, fun j hj => ?_⟩
  have hi' : i = k.val := by
    have := congrArg Fin.val hik
    simpa using this
  have hjk : j.val < k.val := hj
  have := hlt j.val (by omega)
  simpa using this

/-! ### Register ranges -/

theorem State.length_regsUpTo (x : Reg) : (s.regsUpTo x).length = rangeLen x := by
  have := x.isLt
  simp [State.regsUpTo, rangeLen]

theorem State.getD_regsUpTo {x j : Reg} (h : j ≤ x) : (s.regsUpTo x).getD j.val 0 = s.getV j := by
  have hle : j.val ≤ x.val := h
  have hj : j.val < rangeLen x := by simp only [rangeLen]; omega
  simp [State.regsUpTo, List.getD, hj, State.getV]

theorem State.getV_setRegsUpTo (x j : Reg) (bytes : List Byte) :
    (s.setRegsUpTo x bytes).getV j = if j ≤ x then bytes.getD j.val 0 else s.getV j := by
  simp [State.getV, State.setRegsUpTo]

/-! ### Events -/

theorem State.nextEvent_cons {e : Event} {es : List Event} (h : s.events = e :: es) :
    s.nextEvent = e ∧ s.dropEvent = { s with events := es } := by
  refine ⟨by simp [State.nextEvent, h], ?_⟩
  simp [State.dropEvent, h]

theorem State.nextEvent_cycles (h : s.events = []) (hr : s.rest = .cycles) :
    s.nextEvent = .cpuCycle false ∧ s.dropEvent = s := by
  refine ⟨by simp [State.nextEvent, h, hr], ?_⟩
  cases s
  simp_all [State.dropEvent, Rest.next]

theorem State.nextEvent_free {n : Nat} (h : s.events = []) (hr : s.rest = .free n) :
    s.nextEvent = s.allow (Config.freeEvent n) ∧ s.dropEvent = { s with rest := .free (n + 1) } := by
  refine ⟨by simp [State.nextEvent, h, hr], ?_⟩
  cases s
  simp_all [State.dropEvent, Rest.next]

/-- A free event is taken as it is, but for a ROM load the host does not have. -/
theorem State.allow_cases (e : Event) :
    s.allow e = e ∨ ∃ image, e = .romLoad image ∧ (s.romOpen = false ∨ Config.romMax < image.length) ∧
      s.allow e = .cpuCycle false := by
  unfold State.allow
  split
  · rename_i image
    split
    · exact .inl rfl
    · rename_i h
      refine .inr ⟨image, rfl, ?_, rfl⟩
      by_cases ho : s.romOpen = true
      · exact .inr (by simpa [ho] using h)
      · exact .inl (by simpa using ho)
  · exact .inl rfl

/-! ### The reset event -/

@[simp] theorem State.afterReset_config : s.afterReset.config = s.config := rfl
@[simp] theorem State.afterReset_key : s.afterReset.key = s.key := rfl
@[simp] theorem State.afterReset_paused : s.afterReset.paused = s.paused := rfl
@[simp] theorem State.afterReset_events : s.afterReset.events = s.events := rfl
@[simp] theorem State.afterReset_rest : s.afterReset.rest = s.rest := rfl
@[simp] theorem State.afterReset_mem : s.afterReset.mem = [] := rfl
@[simp] theorem State.afterReset_romOpen : s.afterReset.romOpen = true := rfl

/-- After a reset every byte is the reset content (R40). -/
theorem State.afterReset_readByte (a : Nat) : s.afterReset.readByte a = s.config.resetByte a := rfl

end Sys2Proof.Machine
end

