-- ==== Sys2Proof/Laws/Display.lean ====
section
/-! SUPPORT. The sprite draw pixel by pixel (spec/43_display.md R141). -/

namespace Sys2Proof.Machine

open Sys2Proof

/-- Sprite bit `7 - k` falls on column `x0 + k`, and columns right of the frame are lost. -/
theorem spriteRow_pixel (b : Byte) (x0 : Nat) (c : Fin 64) :
    (spriteRow b x0).getMsbD c.val = (decide (x0 ≤ c.val ∧ c.val < x0 + 8) && b.getLsbD (7 - (c.val - x0))) := by
  have hc := c.isLt
  simp only [spriteRow, BitVec.getMsbD_ushiftRight, BitVec.getMsbD_shiftLeft, BitVec.getMsbD_setWidth]
  by_cases h : x0 ≤ c.val ∧ c.val < x0 + 8
  · have h8 : c.val - x0 < 8 := by omega
    simp [h, BitVec.getMsbD, h8, show ¬ (c.val < x0) by omega]
  · simp only [h, decide_false, Bool.false_and]
    by_cases h₁ : c.val < x0
    · simp [h₁]
    · simp [BitVec.getMsbD, h₁]
      intro
      omega

/-- The pixels a sprite covers with a set bit, drawn with its top-left corner at row `y0` and column `x0` (R141): byte `j`
on row `y0 + j`, its bit `7 - k` on column `x0 + k`. Rows and columns outside the frame have no pixel. -/
def spritePixel (x0 y0 : Nat) (bytes : List Byte) (r : Fin 32) (c : Fin 64) : Bool :=
  decide (y0 ≤ r.val ∧ r.val < y0 + bytes.length ∧ x0 ≤ c.val ∧ c.val < x0 + 8) &&
    (bytes.getD (r.val - y0) 0).getLsbD (7 - (c.val - x0))

theorem spritePixel_nil (x0 y0 : Nat) (r : Fin 32) (c : Fin 64) : spritePixel x0 y0 [] r c = false := by
  simp [spritePixel]

/-- The first byte covers row `y0`, the other bytes the rows below. -/
theorem spritePixel_cons (x0 y0 : Nat) (b : Byte) (bs : List Byte) (r : Fin 32) (c : Fin 64) :
    spritePixel x0 y0 (b :: bs) r c =
      if r.val = y0 then (spriteRow b x0).getMsbD c.val else spritePixel x0 (y0 + 1) bs r c := by
  split
  · rename_i h
    simp [spritePixel, spriteRow_pixel, h]
  · rename_i h
    by_cases hy : y0 + 1 ≤ r.val
    · have e : r.val - y0 = (r.val - (y0 + 1)) + 1 := by omega
      simp only [spritePixel, e, List.getD_cons_succ, List.length_cons]
      congr 1
      simp only [decide_eq_decide]
      omega
    · simp only [spritePixel, List.length_cons]
      rw [decide_eq_false (by omega), decide_eq_false (by omega)]
      simp

/-- The draw toggles exactly the covered pixels. -/
theorem drawSprite_pixel (x0 : Nat) (bs : List Byte) : ∀ (fb : Frame) (y0 : Nat) (r : Fin 32) (c : Fin 64),
    ((drawSprite x0 fb y0 bs).1[r]).getMsbD c.val = (fb[r].getMsbD c.val ^^ spritePixel x0 y0 bs r c) := by
  induction bs with
  | nil => intro fb y0 r c; simp [drawSprite, spritePixel_nil]
  | cons b bs ih =>
    intro fb y0 r c
    rw [spritePixel_cons]
    unfold drawSprite
    split
    · rename_i hy
      simp only [ih]
      by_cases h : r.val = y0
      · have h0 : spritePixel x0 (y0 + 1) bs r c = false := by
          simp [spritePixel]
          omega
        simp [h, h0, Fin.getElem_fin]
      · simp [h, Fin.getElem_fin, Ne.symm h]
    · rename_i hy
      rw [ih, if_neg (by omega)]

/-- A row of 64 pixels is nonzero when one of its pixels is set. -/
theorem row_ne_zero (w : Row) : (w != 0) = true ↔ ∃ c : Fin 64, w.getMsbD c.val = true := by
  constructor
  · intro h
    by_contra hn
    have : w = 0 := BitVec.eq_of_getMsbD_eq fun i hi => by
      have := fun hc => hn ⟨⟨i, hi⟩, hc⟩
      simpa using this
    simp [this] at h
  · rintro ⟨c, hc⟩
    by_contra hn
    simp at hn
    simp [hn] at hc

/-- The collision bit says that some covered pixel was set before the draw. -/
theorem drawSprite_collision (x0 : Nat) (bs : List Byte) : ∀ (fb : Frame) (y0 : Nat),
    (drawSprite x0 fb y0 bs).2 = true ↔
      ∃ (r : Fin 32) (c : Fin 64), fb[r].getMsbD c.val = true ∧ spritePixel x0 y0 bs r c = true := by
  induction bs with
  | nil => intro fb y0; simp [drawSprite, spritePixel_nil]
  | cons b bs ih =>
    intro fb y0
    unfold drawSprite
    split
    · rename_i hy
      simp only [Bool.or_eq_true, ih, row_ne_zero, BitVec.getMsbD_and, Bool.and_eq_true]
      constructor
      · rintro (⟨c, h₁, h₂⟩ | ⟨r, c, h₁, h₂⟩)
        · exact ⟨⟨y0, hy⟩, c, h₁, by rw [spritePixel_cons, if_pos rfl]; exact h₂⟩
        · have hr : r.val ≠ y0 := by
            intro e
            simp [spritePixel] at h₂
            omega
          refine ⟨r, c, ?_, by rw [spritePixel_cons, if_neg hr]; exact h₂⟩
          simpa [Fin.getElem_fin, Vector.getElem_set, Ne.symm hr] using h₁
      · rintro ⟨r, c, h₁, h₂⟩
        rw [spritePixel_cons] at h₂
        by_cases hr : r.val = y0
        · rw [if_pos hr] at h₂
          subst hr
          exact .inl ⟨c, h₁, h₂⟩
        · rw [if_neg hr] at h₂
          exact .inr ⟨r, c, by simpa [Fin.getElem_fin, Vector.getElem_set, Ne.symm hr] using h₁, h₂⟩
    · rename_i hy
      rw [ih]
      constructor <;> rintro ⟨r, c, h₁, h₂⟩ <;> refine ⟨r, c, h₁, ?_⟩
      · rwa [spritePixel_cons, if_neg (by omega)]
      · rwa [spritePixel_cons, if_neg (by omega)] at h₂

/-- The pixels covered by the bytes Dxyn reads are those of the claims' term. -/
theorem spritePixel_readBytes (s : State) (x y : Reg) (n : Nat) (r : Fin 32) (c : Fin 64) :
    spritePixel (s.column x) (s.row y) (s.readBytes s.base n) r c = s.spriteCovers x y n r c := by
  unfold spritePixel State.spriteCovers State.readBytes State.base State.column State.row
  simp only [Memory.length_readBytes]
  by_cases h : (s.getV y).toNat % 32 ≤ r.val ∧ r.val < (s.getV y).toNat % 32 + n
  · rw [List.getD, Memory.getElem?_readBytes _ _ _ _ (by omega)]
    rfl
  · rw [decide_eq_false (fun hc => h ⟨hc.1, hc.2.1⟩)]
    simp only [Bool.false_and]

end Sys2Proof.Machine
end

