-- ==== Sys2Proof/Laws/Encoding.lean ====
section
/-! SUPPORT. The bits and the fields of an encoded word (spec/30_encoding.md R72, R73). -/

namespace Sys2Proof

theorem Reg.bits_toFin (x : Reg) : (Reg.bits x).toFin = x := rfl

theorem Word.getLsbD_ofBytes (hi lo : Byte) (i : Nat) :
    (Word.ofBytes hi lo).getLsbD i = if i < 8 then lo.getLsbD i else hi.getLsbD (i - 8) := BitVec.getLsbD_append

theorem Word.ofBytes_hi_lo (w : Word) : Word.ofBytes w.hiByte w.loByte = w := by
  apply BitVec.eq_of_getLsbD_eq
  intro i hi
  rw [Word.getLsbD_ofBytes]
  split
  · simp [*]
  · simp only [BitVec.getLsbD_extractLsb', show i - 8 < 8 by omega, show 8 + (i - 8) = i by omega, decide_true,
      Bool.true_and]

/-- Decoding the bytes of an instruction is decoding its word. -/
theorem decode_encode (i : Instr) (rest : List Byte) :
    decode (encode i ++ rest) =
      match decodeWord (encodeWord i) with
      | .ok j => .ok (j, rest)
      | .error e => .error e := by
  cases h : decodeWord (encodeWord i) <;>
    simp only [encode, List.cons_append, List.nil_append, decode, Word.ofBytes_hi_lo, h]

section Fields

variable (op n : BitVec 4) (x y : Reg) (kk : Byte) (nnn : Addr12)

theorem getLsbD_encodeI (i : Nat) : (encodeI op x kk).getLsbD i =
    if i < 8 then kk.getLsbD i else if i < 12 then (Reg.bits x).getLsbD (i - 8) else op.getLsbD (i - 12) := by
  refine (BitVec.getLsbD_append (x := op ++ Reg.bits x) (y := kk) (i := i)).trans ?_
  rw [BitVec.getLsbD_append]
  split
  · rfl
  · by_cases h : i < 12
    · rw [if_pos (by omega), if_pos h]
    · rw [if_neg (by omega), if_neg h, show i - 8 - 4 = i - 12 by omega]

theorem getLsbD_encodeR (i : Nat) : (encodeR op x y n).getLsbD i =
    if i < 4 then n.getLsbD i else if i < 8 then (Reg.bits y).getLsbD (i - 4)
    else if i < 12 then (Reg.bits x).getLsbD (i - 8) else op.getLsbD (i - 12) := by
  refine (BitVec.getLsbD_append (x := op ++ Reg.bits x ++ Reg.bits y) (y := n) (i := i)).trans ?_
  rw [BitVec.getLsbD_append, BitVec.getLsbD_append]
  split
  · rfl
  · by_cases h : i < 8
    · rw [if_pos (by omega), if_pos h]
    · rw [if_neg (by omega), if_neg h, show i - 4 - 4 = i - 8 by omega]
      by_cases h' : i < 12
      · rw [if_pos (by omega), if_pos h']
      · rw [if_neg (by omega), if_neg h', show i - 8 - 4 = i - 12 by omega]

theorem getLsbD_append_nnn (i : Nat) : (op ++ nnn : Word).getLsbD i =
    if i < 12 then nnn.getLsbD i else op.getLsbD (i - 12) := BitVec.getLsbD_append

theorem op_encodeI : (encodeI op x kk).op = op := by
  apply BitVec.eq_of_getLsbD_eq
  intro i hi
  simp only [Word.op, BitVec.getLsbD_extractLsb', getLsbD_encodeI]
  rw [if_neg (by omega), if_neg (by omega), show 12 + i - 12 = i by omega]
  simp [hi]

theorem fieldX_encodeI : (encodeI op x kk).fieldX = x := by
  have h : (encodeI op x kk).extractLsb' 8 4 = Reg.bits x := by
    apply BitVec.eq_of_getLsbD_eq
    intro i hi
    simp only [BitVec.getLsbD_extractLsb', getLsbD_encodeI]
    rw [if_neg (by omega), if_pos (by omega), show 8 + i - 8 = i by omega]
    simp [hi]
  rw [Word.fieldX, h, Reg.bits_toFin]

theorem fieldKK_encodeI : (encodeI op x kk).fieldKK = kk := by
  apply BitVec.eq_of_getLsbD_eq
  intro i hi
  simp only [Word.fieldKK, BitVec.getLsbD_extractLsb', getLsbD_encodeI]
  rw [if_pos (by omega)]
  simp [hi]

theorem op_encodeR : (encodeR op x y n).op = op := by
  apply BitVec.eq_of_getLsbD_eq
  intro i hi
  simp only [Word.op, BitVec.getLsbD_extractLsb', getLsbD_encodeR]
  rw [if_neg (by omega), if_neg (by omega), if_neg (by omega), show 12 + i - 12 = i by omega]
  simp [hi]

theorem fieldX_encodeR : (encodeR op x y n).fieldX = x := by
  have h : (encodeR op x y n).extractLsb' 8 4 = Reg.bits x := by
    apply BitVec.eq_of_getLsbD_eq
    intro i hi
    simp only [BitVec.getLsbD_extractLsb', getLsbD_encodeR]
    rw [if_neg (by omega), if_neg (by omega), if_pos (by omega), show 8 + i - 8 = i by omega]
    simp [hi]
  rw [Word.fieldX, h, Reg.bits_toFin]

theorem fieldY_encodeR : (encodeR op x y n).fieldY = y := by
  have h : (encodeR op x y n).extractLsb' 4 4 = Reg.bits y := by
    apply BitVec.eq_of_getLsbD_eq
    intro i hi
    simp only [BitVec.getLsbD_extractLsb', getLsbD_encodeR]
    rw [if_neg (by omega), if_pos (by omega), show 4 + i - 4 = i by omega]
    simp [hi]
  rw [Word.fieldY, h, Reg.bits_toFin]

theorem fieldN_encodeR : (encodeR op x y n).fieldN = n := by
  apply BitVec.eq_of_getLsbD_eq
  intro i hi
  simp only [Word.fieldN, BitVec.getLsbD_extractLsb', getLsbD_encodeR]
  rw [if_pos (by omega)]
  simp [hi]

theorem op_append_nnn : Word.op (op ++ nnn) = op := by
  apply BitVec.eq_of_getLsbD_eq
  intro i hi
  simp only [Word.op, BitVec.getLsbD_extractLsb', getLsbD_append_nnn]
  rw [if_neg (by omega), show 12 + i - 12 = i by omega]
  simp [hi]

theorem fieldNNN_append : Word.fieldNNN (op ++ nnn) = nnn := by
  apply BitVec.eq_of_getLsbD_eq
  intro i hi
  simp only [Word.fieldNNN, BitVec.getLsbD_extractLsb', getLsbD_append_nnn]
  rw [if_pos (by omega)]
  simp [hi]

/-- The group digit of a word of formats A, D and I, under the mask 0xF000. -/
theorem and_F000 (w : Word) : w &&& (0xF000 : Word) = w.op ++ 0#12 := by
  apply BitVec.eq_of_getLsbD_eq
  intro i hi
  have h : (w.op ++ 0#12 : Word).getLsbD i = if i < 12 then false else w.op.getLsbD (i - 12) :=
    (getLsbD_append_nnn w.op 0#12 i).trans (by simp)
  rw [h, BitVec.getLsbD_and]
  interval_cases i <;> simp [Word.op]

/-- The group digit and the low byte of a word of format X, under the mask 0xF0FF. -/
theorem and_F0FF (w : Word) : w &&& (0xF0FF : Word) = encodeI w.op 0 w.fieldKK := by
  apply BitVec.eq_of_getLsbD_eq
  intro i hi
  rw [getLsbD_encodeI, BitVec.getLsbD_and]
  interval_cases i <;> simp [Word.op, Word.fieldKK, Reg.bits]

/-- The group digit and the low nibble of a word of format R, under the mask 0xF00F. -/
theorem and_F00F (w : Word) : w &&& (0xF00F : Word) = encodeR w.op 0 0 w.fieldN := by
  apply BitVec.eq_of_getLsbD_eq
  intro i hi
  rw [getLsbD_encodeR, BitVec.getLsbD_and]
  interval_cases i <;> simp [Word.op, Word.fieldN, Reg.bits]

end Fields

theorem Word.bits_fieldX (w : Word) : Reg.bits w.fieldX = w.extractLsb' 8 4 := rfl

theorem Word.bits_fieldY (w : Word) : Reg.bits w.fieldY = w.extractLsb' 4 4 := rfl

/-- A word is its group, its `x` and its `kk` (R72). -/
theorem encodeI_fields (w : Word) : encodeI w.op w.fieldX w.fieldKK = w := by
  apply BitVec.eq_of_getLsbD_eq
  intro i hi
  rw [getLsbD_encodeI, Word.bits_fieldX]
  interval_cases i <;> simp [Word.op, Word.fieldKK]

/-- A word is its group, its `x`, its `y` and its `n` (R72). -/
theorem encodeR_fields (w : Word) : encodeR w.op w.fieldX w.fieldY w.fieldN = w := by
  apply BitVec.eq_of_getLsbD_eq
  intro i hi
  rw [getLsbD_encodeR, Word.bits_fieldX, Word.bits_fieldY]
  interval_cases i <;> simp [Word.op, Word.fieldN]

/-- A word is its group and its `nnn` (R72). -/
theorem append_fields (w : Word) : w.op ++ w.fieldNNN = w := by
  apply BitVec.eq_of_getLsbD_eq
  intro i hi
  refine (getLsbD_append_nnn w.op w.fieldNNN i).trans ?_
  interval_cases i <;> simp [Word.op, Word.fieldNNN]

end Sys2Proof
end

