-- ==== Sys2Proof/Laws/Exec.lean ====
section
/-! SUPPORT. The meanings that branch, one equation per branch, so that a proof cites the branch and unfolds nothing. -/

namespace Sys2Proof.Machine

open Sys2Proof

variable {s t : State}

/-- The claims' condition is the meanings' check (R57). -/
theorem State.transferOutside_iff {m : Nat} : s.transferOutside m ↔ s.outOfRange m = true := by
  rw [State.outOfRange, Bool.and_eq_true, decide_eq_true_eq, decide_eq_true_eq]
  rfl

theorem State.not_transferOutside_iff {m : Nat} : ¬ s.transferOutside m ↔ s.outOfRange m = false := by
  rw [State.transferOutside_iff, Bool.not_eq_true]

theorem exec_ret_empty (h : s.sp.val = 0) : exec .ret s = .next (s.raise .stackUnderflow) := by
  simp only [exec, execRet, State.pop?_none.2 h]

theorem exec_ret_pop {w : Word} (h : s.pop? = some (w, t)) : exec .ret s = .next (t.jumpTo (w + 2)) := by
  simp only [exec, execRet, h]

theorem exec_call_full {nnn : Addr12} (h : s.sp.val = 16) : exec (.call nnn) s = .next (s.raise .stackOverflow) := by
  simp only [exec, execCall, (State.push?_none s.pc).2 h]

theorem exec_call_push {nnn : Addr12} (h : s.push? s.pc = some t) :
    exec (.call nnn) s = .next (t.jumpTo (zextAddr nnn)) := by
  simp only [exec, execCall, h]

theorem exec_drw_outside {x y : Reg} {n : Nat} (h : s.outOfRange n = true) :
    exec (.drw x y n) s = .next (s.raise .memoryRange) := by
  simp only [exec, execDrw, h, if_true]

theorem exec_drw_inside {x y : Reg} {n : Nat} (h : s.outOfRange n = false) :
    exec (.drw x y n) s =
      let d := drawSprite (s.column x) s.fb (s.row y) (s.readBytes s.base n)
      .next ({ s with fb := d.1, dirty := true }.setFlag d.2).advance := by
  simp only [exec, execDrw, h]
  rfl

theorem exec_ldB_outside {x : Reg} (h : s.outOfRange 3 = true) : exec (.ldB x) s = .next (s.raise .memoryRange) := by
  simp only [exec, execLdB, h, if_true]

theorem exec_ldB_inside {x : Reg} (h : s.outOfRange 3 = false) :
    exec (.ldB x) s = .next (s.storeBytes s.base (bcd (s.getV x))).advance := by
  simp only [exec, execLdB, h]
  rfl

theorem exec_storeRegs_outside {x : Reg} (h : s.outOfRange (x.val + 1) = true) :
    exec (.storeRegs x) s = .next (s.raise .memoryRange) := by
  simp only [exec, execStoreRegs, rangeLen, h, if_true]

theorem exec_storeRegs_inside {x : Reg} (h : s.outOfRange (x.val + 1) = false) :
    exec (.storeRegs x) s = .next ((s.storeBytes s.base (s.regsUpTo x)).advanceI x).advance := by
  simp only [exec, execStoreRegs, rangeLen, h]
  rfl

theorem exec_loadRegs_outside {x : Reg} (h : s.outOfRange (x.val + 1) = true) :
    exec (.loadRegs x) s = .next (s.raise .memoryRange) := by
  simp only [exec, execLoadRegs, rangeLen, h, if_true]

theorem exec_loadRegs_inside {x : Reg} (h : s.outOfRange (x.val + 1) = false) :
    exec (.loadRegs x) s = .next ((s.setRegsUpTo x (s.readBytes s.base (x.val + 1))).advanceI x).advance := by
  simp only [exec, execLoadRegs, rangeLen, h]
  rfl

theorem exec_skp_noKey {x : Reg} (h : s.keyOf? x = none) : exec (.skp x) s = .next (s.raise .keyIndex) := by
  simp only [exec, execSkp, h]

theorem exec_skp_key {x : Reg} {down : Bool} (h : s.keyOf? x = some down) :
    exec (.skp x) s = .next (s.skipIf down) := by
  simp only [exec, execSkp, h]

theorem exec_sknp_noKey {x : Reg} (h : s.keyOf? x = none) : exec (.sknp x) s = .next (s.raise .keyIndex) := by
  simp only [exec, execSknp, h]

theorem exec_sknp_key {x : Reg} {down : Bool} (h : s.keyOf? x = some down) :
    exec (.sknp x) s = .next (s.skipIf (!down)) := by
  simp only [exec, execSknp, h]

theorem exec_ldVxK_wait {x : Reg} (h : s.leastKey? = none) : exec (.ldVxK x) s = .next s := by
  simp only [exec, execLdVxK, h]

theorem exec_ldVxK_key {x k : Reg} (h : s.leastKey? = some k) :
    exec (.ldVxK x) s = .next (s.setV x (BitVec.ofNat 8 k.val)).advance := by
  simp only [exec, execLdVxK, h]

/-- A step whose event is an enabled `cpu_cycle` is an instruction cycle on the state without the event. -/
theorem step_cycle {stepReq : Bool} (he : s.nextEvent = .cpuCycle stepReq) (hh : s.halted = false)
    (hp : s.paused = false ∨ stepReq = true) :
    step s = instructionCycle { s.dropEvent with romOpen := false } := by
  have hen : ({ s.dropEvent with romOpen := false } : State).cycleEnabled stepReq = true := by
    rcases hp with hp | hp <;> simp [State.cycleEnabled, hh, hp]
  simp only [step, he, handleEvent, cpuCycle, hen, if_true]

/-- What an instruction cycle can do: one of the two fetch faults, or the decoded instruction (R70, R174). -/
theorem instructionCycle_cases :
    (0x0FFE < s.pc.toNat ∧ instructionCycle s = .next (s.raise .fetchRange)) ∨
      s.pc.toNat ≤ 0x0FFE ∧
        ((∃ e, decodeWord (Word.ofBytes (s.readByte s.pc.toNat) (s.readByte (s.pc.toNat + 1))) = .error e ∧
            instructionCycle s = .next (s.raise .illegalOpcode)) ∨
          ∃ i, decodeWord (Word.ofBytes (s.readByte s.pc.toNat) (s.readByte (s.pc.toNat + 1))) = .ok i ∧
            instructionCycle s = exec i s) := by
  unfold instructionCycle
  cases hf : s.fetch? with
  | none => exact .inl ⟨State.fetch?_none.1 hf, rfl⟩
  | some bs =>
    obtain ⟨hpc, rfl⟩ := State.fetch?_some hf
    refine .inr ⟨hpc, ?_⟩
    simp only [decode]
    cases hd : decodeWord (Word.ofBytes (s.readByte s.pc.toNat) (s.readByte (s.pc.toNat + 1))) with
    | error e => exact .inl ⟨e, rfl, rfl⟩
    | ok i => exact .inr ⟨i, rfl, rfl⟩

end Sys2Proof.Machine
end

