-- ==== Sys2Proof/Laws/PerInstr.lean ====
section
/-! SUPPORT. Per instruction: the encoded word carries the fixed digits of the instruction's row of R76
(spec/30_encoding.md R75: "every literal hexadecimal digit"). -/

namespace Sys2Proof.Laws

open Sys2Proof

/-- The word of `i` selects the row of R76 that `i` stands in. -/
def FixedDigits.Statement (i : Instr) : Prop := i.pattern.selects (encodeWord i) = true

theorem FixedDigits.cls : FixedDigits.Statement .cls := rfl

theorem FixedDigits.ret : FixedDigits.Statement .ret := rfl

theorem FixedDigits.jp (nnn : Addr12) : FixedDigits.Statement (.jp nnn) := by
  simp only [FixedDigits.Statement, Pattern.selects, Instr.pattern, encodeWord, and_F000, op_append_nnn]
  decide

theorem FixedDigits.call (nnn : Addr12) : FixedDigits.Statement (.call nnn) := by
  simp only [FixedDigits.Statement, Pattern.selects, Instr.pattern, encodeWord, and_F000, op_append_nnn]
  decide

theorem FixedDigits.seImm (x : Reg) (kk : Byte) : FixedDigits.Statement (.seImm x kk) := by
  simp only [FixedDigits.Statement, Pattern.selects, Instr.pattern, encodeWord, and_F000, op_encodeI]
  decide

theorem FixedDigits.sneImm (x : Reg) (kk : Byte) : FixedDigits.Statement (.sneImm x kk) := by
  simp only [FixedDigits.Statement, Pattern.selects, Instr.pattern, encodeWord, and_F000, op_encodeI]
  decide

theorem FixedDigits.seReg (x y : Reg) : FixedDigits.Statement (.seReg x y) := by
  simp only [FixedDigits.Statement, Pattern.selects, Instr.pattern, encodeWord, and_F00F, op_encodeR, fieldN_encodeR]
  decide

theorem FixedDigits.ldImm (x : Reg) (kk : Byte) : FixedDigits.Statement (.ldImm x kk) := by
  simp only [FixedDigits.Statement, Pattern.selects, Instr.pattern, encodeWord, and_F000, op_encodeI]
  decide

theorem FixedDigits.addImm (x : Reg) (kk : Byte) : FixedDigits.Statement (.addImm x kk) := by
  simp only [FixedDigits.Statement, Pattern.selects, Instr.pattern, encodeWord, and_F000, op_encodeI]
  decide

theorem FixedDigits.ldReg (x y : Reg) : FixedDigits.Statement (.ldReg x y) := by
  simp only [FixedDigits.Statement, Pattern.selects, Instr.pattern, encodeWord, and_F00F, op_encodeR, fieldN_encodeR]
  decide

theorem FixedDigits.orReg (x y : Reg) : FixedDigits.Statement (.orReg x y) := by
  simp only [FixedDigits.Statement, Pattern.selects, Instr.pattern, encodeWord, and_F00F, op_encodeR, fieldN_encodeR]
  decide

theorem FixedDigits.andReg (x y : Reg) : FixedDigits.Statement (.andReg x y) := by
  simp only [FixedDigits.Statement, Pattern.selects, Instr.pattern, encodeWord, and_F00F, op_encodeR, fieldN_encodeR]
  decide

theorem FixedDigits.xorReg (x y : Reg) : FixedDigits.Statement (.xorReg x y) := by
  simp only [FixedDigits.Statement, Pattern.selects, Instr.pattern, encodeWord, and_F00F, op_encodeR, fieldN_encodeR]
  decide

theorem FixedDigits.addReg (x y : Reg) : FixedDigits.Statement (.addReg x y) := by
  simp only [FixedDigits.Statement, Pattern.selects, Instr.pattern, encodeWord, and_F00F, op_encodeR, fieldN_encodeR]
  decide

theorem FixedDigits.subReg (x y : Reg) : FixedDigits.Statement (.subReg x y) := by
  simp only [FixedDigits.Statement, Pattern.selects, Instr.pattern, encodeWord, and_F00F, op_encodeR, fieldN_encodeR]
  decide

theorem FixedDigits.shr (x y : Reg) : FixedDigits.Statement (.shr x y) := by
  simp only [FixedDigits.Statement, Pattern.selects, Instr.pattern, encodeWord, and_F00F, op_encodeR, fieldN_encodeR]
  decide

theorem FixedDigits.subnReg (x y : Reg) : FixedDigits.Statement (.subnReg x y) := by
  simp only [FixedDigits.Statement, Pattern.selects, Instr.pattern, encodeWord, and_F00F, op_encodeR, fieldN_encodeR]
  decide

theorem FixedDigits.shl (x y : Reg) : FixedDigits.Statement (.shl x y) := by
  simp only [FixedDigits.Statement, Pattern.selects, Instr.pattern, encodeWord, and_F00F, op_encodeR, fieldN_encodeR]
  decide

theorem FixedDigits.sneReg (x y : Reg) : FixedDigits.Statement (.sneReg x y) := by
  simp only [FixedDigits.Statement, Pattern.selects, Instr.pattern, encodeWord, and_F00F, op_encodeR, fieldN_encodeR]
  decide

theorem FixedDigits.ldI (nnn : Addr12) : FixedDigits.Statement (.ldI nnn) := by
  simp only [FixedDigits.Statement, Pattern.selects, Instr.pattern, encodeWord, and_F000, op_append_nnn]
  decide

theorem FixedDigits.jpV0 (nnn : Addr12) : FixedDigits.Statement (.jpV0 nnn) := by
  simp only [FixedDigits.Statement, Pattern.selects, Instr.pattern, encodeWord, and_F000, op_append_nnn]
  decide

theorem FixedDigits.rnd (x : Reg) (kk : Byte) : FixedDigits.Statement (.rnd x kk) := by
  simp only [FixedDigits.Statement, Pattern.selects, Instr.pattern, encodeWord, and_F000, op_encodeI]
  decide

theorem FixedDigits.drw (x y : Reg) (n : Nat) : FixedDigits.Statement (.drw x y n) := by
  simp only [FixedDigits.Statement, Pattern.selects, Instr.pattern, encodeWord, and_F000, op_encodeR]
  decide

theorem FixedDigits.skp (x : Reg) : FixedDigits.Statement (.skp x) := by
  simp only [FixedDigits.Statement, Pattern.selects, Instr.pattern, encodeWord, and_F0FF, op_encodeI, fieldKK_encodeI]
  decide

theorem FixedDigits.sknp (x : Reg) : FixedDigits.Statement (.sknp x) := by
  simp only [FixedDigits.Statement, Pattern.selects, Instr.pattern, encodeWord, and_F0FF, op_encodeI, fieldKK_encodeI]
  decide

theorem FixedDigits.ldVxDT (x : Reg) : FixedDigits.Statement (.ldVxDT x) := by
  simp only [FixedDigits.Statement, Pattern.selects, Instr.pattern, encodeWord, and_F0FF, op_encodeI, fieldKK_encodeI]
  decide

theorem FixedDigits.ldVxK (x : Reg) : FixedDigits.Statement (.ldVxK x) := by
  simp only [FixedDigits.Statement, Pattern.selects, Instr.pattern, encodeWord, and_F0FF, op_encodeI, fieldKK_encodeI]
  decide

theorem FixedDigits.ldDTVx (x : Reg) : FixedDigits.Statement (.ldDTVx x) := by
  simp only [FixedDigits.Statement, Pattern.selects, Instr.pattern, encodeWord, and_F0FF, op_encodeI, fieldKK_encodeI]
  decide

theorem FixedDigits.ldSTVx (x : Reg) : FixedDigits.Statement (.ldSTVx x) := by
  simp only [FixedDigits.Statement, Pattern.selects, Instr.pattern, encodeWord, and_F0FF, op_encodeI, fieldKK_encodeI]
  decide

theorem FixedDigits.addI (x : Reg) : FixedDigits.Statement (.addI x) := by
  simp only [FixedDigits.Statement, Pattern.selects, Instr.pattern, encodeWord, and_F0FF, op_encodeI, fieldKK_encodeI]
  decide

theorem FixedDigits.ldF (x : Reg) : FixedDigits.Statement (.ldF x) := by
  simp only [FixedDigits.Statement, Pattern.selects, Instr.pattern, encodeWord, and_F0FF, op_encodeI, fieldKK_encodeI]
  decide

theorem FixedDigits.ldB (x : Reg) : FixedDigits.Statement (.ldB x) := by
  simp only [FixedDigits.Statement, Pattern.selects, Instr.pattern, encodeWord, and_F0FF, op_encodeI, fieldKK_encodeI]
  decide

theorem FixedDigits.storeRegs (x : Reg) : FixedDigits.Statement (.storeRegs x) := by
  simp only [FixedDigits.Statement, Pattern.selects, Instr.pattern, encodeWord, and_F0FF, op_encodeI, fieldKK_encodeI]
  decide

theorem FixedDigits.loadRegs (x : Reg) : FixedDigits.Statement (.loadRegs x) := by
  simp only [FixedDigits.Statement, Pattern.selects, Instr.pattern, encodeWord, and_F0FF, op_encodeI, fieldKK_encodeI]
  decide

end Sys2Proof.Laws
end

