-- ==== Sys2Proof/Tests/Slice0.lean ====
section
/-! SUPPORT. The model's own tests: ill-formed terms are refused, every constructor's decoding from a word written out from
the encoding column of spec/opcode_table.json, single steps with the results of spec/95_test_vectors.md (the vector's id
stands in the comment), and one witness for the hypotheses of every statement that has some. -/

namespace Sys2Proof.Tests

open Sys2Proof Sys2Proof.Machine

/-! ## Well-formedness -/

theorem test_height_sixteen_is_ill_formed : (Instr.drw 0 0 16).wellFormed = false := by decide

theorem test_height_fifteen_is_well_formed : (Instr.drw 0 0 15).wellFormed = true := by decide

/-- E5 to E10: an illegal word of each group of R78. -/
theorem test_illegal_words_are_refused :
    [0x0000, 0x0123, 0x00E1, 0x5121, 0x8128, 0x812F, 0x9128, 0xE19F, 0xE1A0, 0xF100, 0xF11F, 0xF1FF].all
      (fun w : Word => !w.legal && decodeWord w == .error (.illegalOpcode w)) = true := by decide

/-- The 34 rows are pairwise disjoint (R75): two rows differ in a digit that both fix. -/
theorem test_rows_are_disjoint :
    Pattern.table.Pairwise (fun p q : Pattern => (p.bits ^^^ q.bits) &&& (p.mask &&& q.mask) ≠ 0) := by decide

theorem test_one_byte_is_truncated : decode [0x60] = .error .truncated := by decide

/-! ## Decoding: one word for each constructor -/

theorem test_decode_flow :
    decode [0x00, 0xEE] = .ok (.ret, []) ∧ decode [0x12, 0x34] = .ok (.jp 0x234, []) ∧
      decode [0x23, 0x00] = .ok (.call 0x300, []) ∧ decode [0x33, 0x2A] = .ok (.seImm 3 0x2A, []) ∧
      decode [0x43, 0x2B] = .ok (.sneImm 3 0x2B, []) ∧ decode [0x51, 0x20] = .ok (.seReg 1 2, []) ∧
      decode [0x9F, 0x20] = .ok (.sneReg 15 2, []) ∧ decode [0xBF, 0xFE] = .ok (.jpV0 0xFFE, []) := by decide

theorem test_decode_alu :
    decode [0x6A, 0x05] = .ok (.ldImm 10 0x05, []) ∧ decode [0x7F, 0x02] = .ok (.addImm 15 0x02, []) ∧
      decode [0x81, 0x20] = .ok (.ldReg 1 2, []) ∧ decode [0x81, 0x21] = .ok (.orReg 1 2, []) ∧
      decode [0x81, 0x22] = .ok (.andReg 1 2, []) ∧ decode [0x81, 0x23] = .ok (.xorReg 1 2, []) ∧
      decode [0x81, 0x24] = .ok (.addReg 1 2, []) := by decide

theorem test_decode_sub_and_shift :
    decode [0x8F, 0x25] = .ok (.subReg 15 2, []) ∧
      decode [0x81, 0x26] = .ok (.shr 1 2, []) ∧ decode [0x81, 0xF7] = .ok (.subnReg 1 15, []) ∧
      decode [0x81, 0x2E] = .ok (.shl 1 2, []) := by decide

theorem test_decode_index :
    decode [0xA3, 0x01] = .ok (.ldI 0x301, []) ∧ decode [0xF1, 0x1E] = .ok (.addI 1, []) ∧
      decode [0xF1, 0x29] = .ok (.ldF 1, []) ∧ decode [0xF5, 0x33] = .ok (.ldB 5, []) ∧
      decode [0xF2, 0x55] = .ok (.storeRegs 2, []) ∧ decode [0xFF, 0x65] = .ok (.loadRegs 15, []) := by decide

theorem test_decode_devices :
    decode [0x00, 0xE0] = .ok (.cls, []) ∧ decode [0xDA, 0xB5] = .ok (.drw 10 11 5, []) ∧
      decode [0xE1, 0x9E] = .ok (.skp 1, []) ∧ decode [0xE1, 0xA1] = .ok (.sknp 1, []) ∧
      decode [0xF2, 0x0A] = .ok (.ldVxK 2, []) ∧ decode [0xF1, 0x07] = .ok (.ldVxDT 1, []) ∧
      decode [0xF1, 0x15] = .ok (.ldDTVx 1, []) ∧ decode [0xF1, 0x18] = .ok (.ldSTVx 1, []) ∧
      decode [0xC1, 0x0F] = .ok (.rnd 1 0x0F, []) := by decide

theorem test_encode_is_big_endian : encode (.jp 0x234) = [0x12, 0x34] ∧ encode (.drw 10 11 5) = [0xDA, 0xB5] := by decide

theorem test_table_word : decodeTableWord 16 0x8127 = some (.subnReg 1 2) ∧ decodeTableWord 16 0x5121 = none := by decide

/-! ## Single steps -/

/-- The state after one step on a placed word. -/
def after (s : State) (w : Nat) : Option State :=
  match step (s.withFetchWord 16 w) with
  | .next t => some t
  | .fault _ => none
  | .refused _ => none

/-- Reset with an instruction cycle due. -/
def due : State := { State.reset with events := [.cpuCycle false] }

/-- Reset with registers set. -/
def withV (vs : List (Reg × Byte)) : State := vs.foldl (fun s p => s.setV p.1 p.2) State.reset

/-- What one step on a placed word leaves, as seen through `f`. -/
def seen {α : Type} (s : State) (w : Nat) (f : State → α) : Option α := (after s w).map f

/-- F1. -/
theorem test_ret :
    seen { State.reset with sp := 1, stack := State.reset.stack.set 0 0x0204 } 0x00EE (fun t => (t.sp, t.pc)) =
      some (0, 0x0206) := by decide

/-- StackUnderflow of part 5. -/
theorem test_ret_underflow :
    seen State.reset 0x00EE (fun t => (t.halted, t.haltCause.code, t.pc)) = some (true, 3, 0x0200) := by decide

/-- F2. -/
theorem test_jp : seen State.reset 0x1234 (fun t => t.pc) = some 0x0234 := by decide

/-- F6. -/
theorem test_call :
    seen { State.reset with sp := 15 } 0x2300 (fun t => (t.stack[15], t.sp, t.pc)) = some (0x0200, 16, 0x0300) := by decide

/-- StackOverflow of part 5. -/
theorem test_call_overflow :
    seen { State.reset with sp := 16 } 0x2300 (fun t => (t.halted, t.haltCause.code, t.pc)) = some (true, 2, 0x0200) := by
  decide

/-- F7, F8. -/
theorem test_seImm :
    seen (withV [(3, 0x2A)]) 0x332A (fun t => t.pc) = some 0x0204 ∧
      seen (withV [(3, 0x2B)]) 0x332A (fun t => t.pc) = some 0x0202 := by decide

/-- F10, F11. -/
theorem test_sneImm :
    seen (withV [(3, 0x2A)]) 0x432A (fun t => t.pc) = some 0x0202 ∧
      seen State.reset 0x432A (fun t => t.pc) = some 0x0204 := by decide

/-- F12, F13. -/
theorem test_seReg :
    seen (withV [(1, 7), (2, 7)]) 0x5120 (fun t => t.pc) = some 0x0204 ∧
      seen (withV [(1, 7), (2, 8)]) 0x5120 (fun t => t.pc) = some 0x0202 := by decide

/-- F15, F16. -/
theorem test_sneReg :
    seen (withV [(1, 7), (2, 8)]) 0x9120 (fun t => t.pc) = some 0x0204 ∧
      seen (withV [(1, 7), (2, 7)]) 0x9120 (fun t => t.pc) = some 0x0202 := by decide

/-- F18, F19. -/
theorem test_jpV0 :
    seen (withV [(0, 0xFF)]) 0xBFFF (fun t => t.pc) = some 0x10FE ∧
      seen (withV [(0, 1), (3, 0x77)]) 0xB300 (fun t => t.pc) = some 0x0301 := by decide

/-- S6. -/
theorem test_ldImm : seen State.reset 0x6A05 (fun t => (t.getV 10, t.pc)) = some (5, 0x0202) := by decide

/-- A3. -/
theorem test_addImm : seen (withV [(1, 0xFF)]) 0x7101 (fun t => (t.getV 1, t.getV VF)) = some (0, 0) := by decide

/-- A6. -/
theorem test_ldReg : seen (withV [(2, 0x7C)]) 0x8120 (fun t => t.getV 1) = some 0x7C := by decide

/-- A7, A10. -/
theorem test_or :
    seen (withV [(1, 0x0C), (2, 0x0A), (15, 1)]) 0x8121 (fun t => (t.getV 1, t.getV VF)) = some (0x0E, 0) ∧
      seen (withV [(15, 0x0C), (2, 0x0A)]) 0x8F21 (fun t => t.getV VF) = some 0 := by decide

/-- A8. -/
theorem test_and :
    seen (withV [(1, 0x0C), (2, 0x0A), (15, 1)]) 0x8122 (fun t => (t.getV 1, t.getV VF)) = some (0x08, 0) := by decide

/-- A9, A12. -/
theorem test_xor :
    seen (withV [(1, 0x0C), (2, 0x0A), (15, 1)]) 0x8123 (fun t => (t.getV 1, t.getV VF)) = some (0x06, 0) ∧
      seen (withV [(1, 0x03), (15, 0x0C)]) 0x81F3 (fun t => (t.getV 1, t.getV VF)) = some (0x0F, 0) := by decide

/-- A14, A17. -/
theorem test_addReg :
    seen (withV [(1, 0xFF), (2, 1)]) 0x8124 (fun t => (t.getV 1, t.getV VF)) = some (0, 1) ∧
      seen (withV [(1, 0x90), (15, 0x90)]) 0x81F4 (fun t => (t.getV 1, t.getV VF)) = some (0x20, 1) := by decide

/-- A18. -/
theorem test_addReg_into_VF : seen (withV [(15, 0x90), (1, 0x90)]) 0x8F14 (fun t => t.getV VF) = some 1 := by decide

/-- A21, A22. -/
theorem test_sub :
    seen (withV [(1, 1), (2, 0x10)]) 0x8125 (fun t => (t.getV VF, t.getV 1)) = some (0, 0xF1) ∧
      seen (withV [(1, 0x33), (2, 0x33)]) 0x8125 (fun t => (t.getV VF, t.getV 1)) = some (0, 0) := by decide

/-- A24, A25. -/
theorem test_sub_with_VF :
    seen (withV [(15, 5), (2, 3)]) 0x8F25 (fun t => t.getV VF) = some 0xFE ∧
      seen (withV [(1, 5), (15, 3)]) 0x81F5 (fun t => (t.getV VF, t.getV 1)) = some (1, 4) := by decide

/-- A27, A29. -/
theorem test_shr :
    seen (withV [(1, 5), (2, 0xFF)]) 0x8126 (fun t => (t.getV VF, t.getV 1, t.getV 2)) = some (1, 2, 0xFF) ∧
      seen (withV [(15, 3)]) 0x8F06 (fun t => t.getV VF) = some 0 := by decide

/-- A30, A31. -/
theorem test_subn :
    seen (withV [(1, 1), (2, 0x10)]) 0x8127 (fun t => (t.getV VF, t.getV 1)) = some (1, 0x0F) ∧
      seen (withV [(1, 0x10), (2, 1)]) 0x8127 (fun t => (t.getV VF, t.getV 1)) = some (0, 0xF1) := by decide

/-- A33, A34. -/
theorem test_subn_with_VF :
    seen (withV [(15, 3), (2, 5)]) 0x8F27 (fun t => t.getV VF) = some 4 ∧
      seen (withV [(1, 3), (15, 5)]) 0x81F7 (fun t => (t.getV VF, t.getV 1)) = some (1, 0xFE) := by decide

/-- A36, A38. -/
theorem test_shl :
    seen (withV [(1, 0x81)]) 0x812E (fun t => (t.getV VF, t.getV 1, t.getV 2)) = some (1, 2, 0) ∧
      seen (withV [(15, 0x80)]) 0x8F0E (fun t => t.getV VF) = some 2 := by decide

/-- M2. -/
theorem test_ldI : seen { State.reset with i := 0xFFFF } 0xAFFF (fun t => (t.i, t.pc)) = some (0x0FFF, 0x0202) := by decide

/-- M4, M6. -/
theorem test_addI :
    seen ({ State.reset with i := 0x0FFF }.setV 1 1) 0xF11E (fun t => (t.i, t.getV VF)) = some (0x1000, 1) ∧
      seen ({ State.reset with i := 0xFFFF }.setV 1 2) 0xF11E (fun t => (t.i, t.getV VF)) = some (1, 0) := by decide

/-- M8, M10. -/
theorem test_ldF :
    seen (withV [(1, 0x0A)]) 0xF129 (fun t => t.i) = some 0x0032 ∧
      seen (withV [(1, 0xFF)]) 0xF129 (fun t => t.i) = some 0x04FB := by decide

/-- M15. -/
theorem test_ldB :
    seen ({ State.reset with i := 0x0FFD }.setV 5 0x7B) 0xF533 (fun t => (t.readBytes 0x0FFD 3, t.pc)) =
      some ([1, 2, 3], 0x0202) := by decide

/-- M16. -/
theorem test_ldB_out_of_range :
    seen ({ State.reset with i := 0x0FFE }.setV 5 0x7B) 0xF533 (fun t => (t.haltCause.code, t.readByte 0x0FFE, t.pc)) =
      some (4, 0, 0x0200) := by decide

/-- M17. -/
theorem test_storeRegs :
    seen { withV [(0, 0x11), (1, 0x22), (2, 0x33)] with i := 0x0300 } 0xF255 (fun t => (t.readBytes 0x0300 4, t.i)) =
      some ([0x11, 0x22, 0x33, 0], 0x0303) := by decide

/-- M19, M20. -/
theorem test_storeRegs_top :
    seen { State.reset with i := 0x0FF0 } 0xFF55 (fun t => (t.i, t.halted)) = some (0x1000, false) ∧
      seen { State.reset with i := 0x0FF1 } 0xFF55 (fun t => (t.i, t.haltCause.code)) = some (0x0FF1, 4) := by decide

/-- M22. -/
theorem test_loadRegs :
    seen ({ withV [(3, 0x99)] with i := 0x0300 }.storeBytes 0x0300 [2, 5, 4]) 0xF265
      (fun t => (t.getV 0, t.getV 1, t.getV 2, t.getV 3, t.i)) = some (2, 5, 4, 0x99, 0x0303) := by decide

/-- M23, M24. -/
theorem test_loadRegs_top :
    seen ({ State.reset with i := 0x0FFF }.storeBytes 0x0FFF [0xAB]) 0xF065 (fun t => (t.getV 0, t.i)) =
        some (0xAB, 0x1000) ∧
      seen { State.reset with i := 0x1000 } 0xF065 (fun t => t.haltCause.code) = some 4 := by decide

/-- S2, at two pixels. -/
theorem test_cls :
    seen { State.reset with fb := (State.reset.fb.set 3 (-1)).set 31 1 } 0x00E0
      (fun t => (t.pixel 3 4, t.pixel 31 63, t.dirty)) = some (false, false, true) := by decide

/-- G5v: the corner, on the default font (log 6). -/
theorem test_drw_clips :
    seen (withV [(0, 0x3E), (1, 0x1E)]) 0xD015
      (fun t => (t.fb[30], t.fb[31], t.fb[0], t.fb[1], t.getV VF, t.dirty)) = some (3, 2, 0, 0, 0, true) := by decide

/-- G4v, G8v. -/
theorem test_drw_collides_and_faults :
    seen ({ State.reset with i := 0x0300, fb := State.reset.fb.set 0 0x4000000000000000 }.storeBytes 0x0300 [0xF0]) 0xD011
        (fun t => (t.fb[0], t.getV VF)) = some (0xB000000000000000, 1) ∧
      seen { State.reset with i := 0x0FFF } 0xD012 (fun t => (t.haltCause.code, t.dirty, t.pc)) =
        some (4, false, 0x0200) := by decide

/-- K1, K2. -/
theorem test_skp :
    seen { withV [(1, 5)] with key := State.reset.key.set 5 true } 0xE19E (fun t => t.pc) = some 0x0204 ∧
      seen (withV [(1, 5)]) 0xE19E (fun t => t.pc) = some 0x0202 := by decide

/-- K3. -/
theorem test_skp_fault : seen (withV [(0, 0x10)]) 0xE09E (fun t => (t.haltCause.code, t.pc)) = some (6, 0x0200) := by decide

/-- K4, K5. -/
theorem test_sknp :
    seen (withV [(1, 5)]) 0xE1A1 (fun t => t.pc) = some 0x0204 ∧
      seen { withV [(1, 5)] with key := State.reset.key.set 5 true } 0xE1A1 (fun t => t.pc) = some 0x0202 := by decide

/-- K6. -/
theorem test_sknp_fault : seen (withV [(0, 0xFF)]) 0xE0A1 (fun t => t.haltCause.code) = some 6 := by decide

/-- K7. -/
theorem test_ldVxK :
    seen { State.reset with key := (State.reset.key.set 3 true).set 7 true } 0xF20A (fun t => (t.getV 2, t.pc)) =
      some (3, 0x0202) := by decide

/-- K8. -/
theorem test_ldVxK_waits : seen State.reset 0xF20A (fun t => (t.getV 2, t.pc)) = some (0, 0x0200) := by decide

/-- T1, T6. -/
theorem test_ldVxDT :
    seen { State.reset with dt := 7, st := 9 } 0xF107 (fun t => (t.getV 1, t.dt)) = some (7, 7) := by decide

/-- T2. -/
theorem test_ldDTVx : seen (withV [(1, 0x0A)]) 0xF115 (fun t => (t.dt, t.st)) = some (0x0A, 0) := by decide

/-- T4, T5. -/
theorem test_ldSTVx :
    seen (withV [(1, 2)]) 0xF118 (fun t => (t.st, t.beep)) = some (2, true) ∧
      seen { State.reset with st := 5 } 0xF118 (fun t => (t.st, t.beep)) = some (0, false) := by decide

/-- Reset of a machine with the deterministic source of R162, V1 set. -/
def withSource (bytes : List Byte) (v1 : Byte) : State :=
  (State.resetOf { Config.default with rngTable := Config.byteSource bytes }).setV 1 v1

/-- X2, and the example of R160: a draw is consumed even under the mask 0, and the mask keeps its bits. -/
theorem test_rnd :
    seen (withSource [0xFF] 0x55) 0xC100 (fun t => (t.getV 1, t.rng)) = some (0, 1) ∧
      seen (withSource [0xA7] 0) 0xC10F (fun t => t.getV 1) = some 0x07 := by decide

/-! ## Fetch and events -/

/-- E4, and the priority note of part 5. -/
theorem test_fetch_range :
    (match step { due with pc := 0x0FFF } with
      | .next t => some (t.haltCause.code, t.pc)
      | _ => none) = some (5, 0x0FFF) := by decide

/-- V10. -/
theorem test_empty_memory_halts :
    (match step due with
      | .next t => some (t.haltCause.code, t.pc)
      | _ => none) = some (1, 0x0200) := by decide

/-- V1, first tick. -/
theorem test_tick :
    (match step { State.reset with dt := 2, st := 1, events := [.timerTick] } with
      | .next t => some (t.dt, t.st, t.beep)
      | _ => none) = some (1, 0, false) := by decide

/-- V2 and V4. -/
theorem test_paused :
    (match step { State.reset with dt := 5, paused := true, events := [.timerTick] } with
        | .next t => some t.dt
        | _ => none) = some 5 ∧
      (match step { State.reset.storeBytes 0x200 [0x6A, 0x05] with paused := true, events := [.cpuCycle true] } with
        | .next t => some (t.getV 10, t.pc)
        | _ => none) = some (5, 0x0202) := by decide

/-- V9. -/
theorem test_reset_event :
    (match step { State.reset with halted := true, haltCause := .keyIndex, mem := [(0x300, 7)], events := [.reset] } with
      | .next t => some (decide (t = State.reset))
      | _ => none) = some true := by decide

/-- R8, R40: the font of the configuration stands at 0x000 to 0x04F after reset, zero above. -/
theorem test_reset_font :
    State.reset.readBytes 0x32 5 = [0xF0, 0x90, 0xF0, 0x90, 0x90] ∧
      (State.resetOf { Config.default with font := Vector.replicate 80 7 }).readBytes 0x4E 3 = [7, 7, 0] := by decide

/-- R51: the image stands at 0x200 upward. -/
theorem test_rom_load :
    (match step { State.reset with events := [.romLoad [0x12, 0x34]] } with
      | .next t => some (t.readBytes 0x1FF 4)
      | _ => none) = some [0, 0x12, 0x34, 0] := by decide

/-! ## Witnesses: for every statement with hypotheses, a state and operands that meet them all; where a statement has
several clauses, one at a boundary of each -/

/-- Reset about to run one word. -/
def placed (w : Nat) : State := State.reset.withFetchWord 16 w

/-- Reset with the index register set. -/
def withI (w : Word) : State := State.reset.setI w

theorem witness_DecodeOfEncodeIsTheInstruction : (Instr.drw 15 0 15).wellFormed = true := by decide

theorem witness_EncodeOfDecodeIsTheWord : decodeWord 0xFF65 = .ok (.loadRegs 15) := by decide

theorem witness_WordDecodesExactlyWhenItSelectsARow :
    Word.legal 0x00E0 = true ∧ Word.legal 0x00E1 = false ∧ Pattern.mk 0xFFFF 0x00E0 ∈ Pattern.table ∧
      (Pattern.mk 0xFFFF 0x00E0).selects 0x00E0 = true := by decide

theorem witness_StepRunsTheDecodedInstruction :
    let s := (due.storeBytes 0x0FFE [0x6A, 0x05]).jumpTo 0x0FFE
    s.nextEvent = .cpuCycle false ∧ s.halted = false ∧ s.paused = false ∧ s.pc.toNat ≤ 0x0FFE ∧
      decode [s.readByte s.pc.toNat, s.readByte (s.pc.toNat + 1)] = .ok (.ldImm 10 5, []) := by decide

theorem witness_StepRunsTheDecodedInstruction_paused :
    let s := { placed 0x6A05 with paused := true, events := [.cpuCycle true] }
    s.nextEvent = .cpuCycle true ∧ s.halted = false ∧ s.pc.toNat ≤ 0x0FFE ∧
      decode [s.readByte s.pc.toNat, s.readByte (s.pc.toNat + 1)] = .ok (.ldImm 10 5, []) := by decide

theorem witness_FetchAboveMemoryHalts :
    let s := due.jumpTo 0x0FFF
    s.nextEvent = .cpuCycle false ∧ s.halted = false ∧ s.paused = false ∧ 0x0FFE < s.pc.toNat := by decide

theorem witness_IllegalWordHalts :
    let s := due.jumpTo 0x0FFE
    s.nextEvent = .cpuCycle false ∧ s.halted = false ∧ s.paused = false ∧ s.pc.toNat ≤ 0x0FFE ∧
      (Word.ofBytes (s.readByte s.pc.toNat) (s.readByte (s.pc.toNat + 1))).legal = false := by decide

theorem witness_DisabledCycleDoesNothing :
    (due.raise .keyIndex).nextEvent = .cpuCycle false ∧ (due.raise .keyIndex).halted = true ∧
      ({ due with paused := true } : State).nextEvent = .cpuCycle false ∧
      ({ due with paused := true } : State).paused = true := by decide

theorem witness_PlacedWordIsTheNextInstructionRun :
    State.reset.mem.wf State.reset.config = true ∧ decodeTableWord 16 0xD015 = some (.drw 0 1 5) := by decide

/-- One state for each row of the fault table of R171, at the boundary of the row. -/
theorem witness_FaultingInstructionOnlyHalts :
    Raises (.call 0) { State.reset with sp := 16 } .stackOverflow ∧ Raises .ret State.reset .stackUnderflow ∧
      Raises (.drw 0 0 1) (withI 0x1000) .memoryRange ∧ Raises (.ldB 0) (withI 0x0FFE) .memoryRange ∧
      Raises (.storeRegs 15) (withI 0x0FF1) .memoryRange ∧ Raises (.loadRegs 0) (withI 0x1000) .memoryRange ∧
      Raises (.skp 0) (withV [(0, 16)]) .keyIndex ∧ Raises (.sknp 0) (withV [(0, 255)]) .keyIndex :=
  ⟨.stackOverflow _ _ (by decide), .stackUnderflow _ (by decide), .drawOutside _ _ _ _ ⟨by decide, by decide⟩,
    .digitsOutside _ _ ⟨by decide, by decide⟩, .storeOutside _ _ ⟨by decide, by decide⟩,
    .loadOutside _ _ ⟨by decide, by decide⟩, .keyDownIndex _ _ (by decide), .keyUpIndex _ _ (by decide)⟩

theorem witness_OtherInstructionsComplete :
    (∀ c, ¬ Raises (.call 0) { State.reset with sp := 15 } c) ∧ (∀ c, ¬ Raises .ret { State.reset with sp := 1 } c) ∧
      (∀ c, ¬ Raises (.drw 0 0 0) (withI 0xFFFF) c) ∧ (∀ c, ¬ Raises (.ldB 0) (withI 0x0FFD) c) ∧
      (∀ c, ¬ Raises (.storeRegs 15) (withI 0x0FF0) c) ∧ (∀ c, ¬ Raises (.loadRegs 0) (withI 0x0FFF) c) ∧
      ∀ c, ¬ Raises (.skp 0) (withV [(0, 15)]) c := by
  refine ⟨?_, ?_, ?_, ?_, ?_, ?_, ?_⟩ <;> intro c h <;> cases h <;>
    first
    | exact absurd ‹_ = _› (by decide)
    | exact absurd ‹_ < _› (by decide)
    | exact absurd (‹State.transferOutside _ _›).1 (by decide)
    | exact absurd (‹State.transferOutside _ _›).2 (by decide)

theorem witness_HaltingCycleIsPrecise :
    due.nextEvent = .cpuCycle false ∧ due.halted = false ∧
      step due = .next { due with events := [], romOpen := false, halted := true, haltCause := .illegalOpcode } :=
  ⟨rfl, rfl, rfl⟩

/-- The halted states of the frozen-machine statement: a refused load, and the other events. -/
def haltedWith (es : List Event) : State := { State.reset.raise .fetchRange with romOpen := false, events := es }

theorem haltedWith_inv (es : List Event) : (haltedWith es).Inv :=
  ⟨rfl, by simp [haltedWith, State.raise], by intro k hk; simp [haltedWith, State.raise, State.reset, State.resetOf] at hk, fun _ => rfl⟩

theorem witness_HaltedMachineIsFrozen :
    ((haltedWith [.romLoad [0]]).Inv ∧ (haltedWith [.romLoad [0]]).halted = true ∧
        (haltedWith [.romLoad [0]]).nextEvent = .romLoad [0]) ∧
      (haltedWith [.renderAck]).Inv ∧ (haltedWith [.renderAck]).halted = true ∧
      (haltedWith [.renderAck]).nextEvent = .renderAck :=
  ⟨⟨haltedWith_inv _, rfl, rfl⟩, haltedWith_inv _, rfl, rfl⟩

theorem reset_inv : State.reset.Inv :=
  ⟨by decide, by decide, by intro k hk; simp [State.reset, State.resetOf] at hk, by decide⟩

theorem due_inv : due.Inv := ⟨by decide, by decide, by intro k hk; simp [due, State.reset, State.resetOf] at hk, by decide⟩

theorem witness_StepKeepsTheInvariant : due.Inv ∧ ∃ t, step due = .next t := ⟨due_inv, _, rfl⟩

theorem witness_ConfigurationIsFixed : ∃ t, step due = .next t := ⟨_, rfl⟩

/-- A listed event, a free one and a cycle. -/
theorem witness_EventsComeAsListedThenAsRestSays :
    due.events = .cpuCycle false :: [] ∧ (State.reset.events = [] ∧ State.reset.rest = .free 0) ∧
      (placed 0x1200).events = [] ∧ (placed 0x1200).rest = .cycles := by decide

theorem witness_ResetEventRebuildsTheState : (haltedWith [.reset]).nextEvent = .reset := by decide

theorem witness_CallPushesItsOwnAddress : ({ State.reset with sp := 15 } : State).sp.val ≠ 16 := by decide

theorem witness_ReturnPopsAndAddsTwo :
    ({ State.reset with sp := 1 } : State).sp.val = (0 : Fin 16).val + 1 ∧
      ({ State.reset with sp := 16 } : State).sp.val = (15 : Fin 16).val + 1 := by decide

theorem witness_ReturnAfterCallResumesAfterIt : ({ State.reset with sp := 15 } : State).sp.val ≠ 16 := by decide

/-- The premises inside the arithmetic statements: a destination other than VF, and VF itself. -/
theorem witness_flag_cases : (14 : Reg) ≠ VF ∧ (15 : Reg) = VF := by decide

theorem witness_DecimalDigitsAreStored : (withI 0x0FFD).mem.wf (withI 0x0FFD).config = true ∧ (withI 0x0FFD).base + 2 ≤ 0xFFF := by decide

theorem witness_StoreWritesV0ToVx :
    (withI 0x0FF0).mem.wf (withI 0x0FF0).config = true ∧ (withI 0x0FF0).base + (15 : Reg).val ≤ 0xFFF ∧
      (withI 0x0FFF).base + (0 : Reg).val ≤ 0xFFF := by decide

theorem witness_LoadReadsV0ToVx :
    (withI 0x0FF0).base + (15 : Reg).val ≤ 0xFFF ∧ (withI 0x0FFF).base + (0 : Reg).val ≤ 0xFFF := by decide

theorem witness_LoadAfterStoreRestoresRegisters :
    let s := (withV [(0, 7)]).setI 0x0FFF
    let u := { s with mem := [(0x0FFF, 7)] }
    s.mem.wf s.config = true ∧ s.base + (0 : Reg).val ≤ 0xFFF ∧ u.i = s.i ∧
      ∃ t, exec (.storeRegs 0) s = .next t ∧ ∀ a, u.readByte a = t.readByte a :=
  ⟨by decide, by decide, rfl, _, rfl, fun _ => rfl⟩

theorem witness_StoredWordIsTheNextFetched :
    (withI 0x0202).mem.wf (withI 0x0202).config = true ∧ (withI 0x0202).base + (1 : Reg).val ≤ 0xFFF ∧
      (1 : Reg).val = (0 : Reg).val + 1 ∧ (1 : Reg) ≤ 1 ∧ (withI 0x0202).pc.toNat + 2 = (withI 0x0202).base + (0 : Reg).val := by
  decide

/-- No byte at an unreachable base, and the last byte of memory. -/
theorem witness_DrawTogglesTheSpritePixels :
    ((0 = 0 ∨ (withI 0xFFFF).base + 0 - 1 ≤ 0xFFF) ∧ ((1 = 0) ∨ (withI 0x0FFF).base + 1 - 1 ≤ 0xFFF)) ∧
      ((15 = 0) ∨ (withI 0x0FF1).base + 15 - 1 ≤ 0xFFF) := by decide

theorem witness_DrawingTwiceRestoresTheDisplay :
    ∃ t, ((5 = 0) ∨ (withI 0).base + 5 - 1 ≤ 0xFFF) ∧ exec (.drw 0 1 5) (withI 0) = .next t ∧
      (t.getV 0).toNat % 64 = ((withI 0).getV 0).toNat % 64 ∧ (t.getV 1).toNat % 32 = ((withI 0).getV 1).toNat % 32 :=
  ⟨_, by decide, rfl, by decide, by decide⟩

theorem witness_SecondDrawCollidesWheneverASpritePixelIsInTheFrame :
    ∃ t u, ((5 = 0) ∨ (withI 0).base + 5 - 1 ≤ 0xFFF) ∧ exec (.drw 0 1 5) (withI 0) = .next t ∧
      (t.getV 0).toNat % 64 = ((withI 0).getV 0).toNat % 64 ∧ (t.getV 1).toNat % 32 = ((withI 0).getV 1).toNat % 32 ∧
      exec (.drw 0 1 5) t = .next u ∧ ∃ r c, (withI 0).spriteCovers 0 1 5 r c = true :=
  ⟨_, _, by decide, rfl, by decide, by decide, rfl, 0, 0, by decide⟩

theorem witness_KeySkipsTestTheKey :
    ((withV [(0, 0)]).getV 0).toNat = (0 : Reg).val ∧ ((withV [(0, 15)]).getV 0).toNat = (15 : Reg).val := by decide

theorem witness_KeyWaitReportsTheLeastKey :
    let s := { State.reset with key := (State.reset.key.set 3 true).set 7 true }
    s.key[(3 : Reg)] = true ∧ ∀ j : Reg, j < 3 → s.key[j] = false := by decide

theorem witness_KeyWaitPollsWithoutEffect : ∀ k : Reg, State.reset.key[k] = false := by decide

theorem witness_TickCountsBothTimersDown :
    ({ State.reset with events := [.timerTick] } : State).nextEvent = .timerTick ∧
      (haltedWith [.timerTick]).nextEvent = .timerTick ∧ (haltedWith [.timerTick]).halted = true ∧
      ({ State.reset with paused := true, events := [.timerTick] } : State).nextEvent = .timerTick := by decide

theorem witness_BeepFollowsTheSoundTimer :
    let s := { State.reset with st := 1, events := [.timerTick] }
    s.nextEvent = .timerTick ∧ s.paused = false ∧ s.halted = false := by decide

theorem witness_BeepFollowsTheSoundTimer_pause :
    ({ State.reset with st := 1, events := [.setPaused true] } : State).nextEvent = .setPaused true ∧
      ({ State.reset with st := 1, paused := true, events := [.setPaused false] } : State).nextEvent =
        .setPaused false := by decide

theorem witness_BeepFollowsTheSoundTimer_halt :
    let s := { due with st := 1 }
    s.nextEvent = .cpuCycle false ∧ s.halted = false ∧ ∃ t, step s = .next t ∧ t.halted = true :=
  ⟨rfl, rfl, _, rfl, rfl⟩

theorem witness_ByteSourceIsConsumedInOrder :
    let s := withSource [0xA7, 0x3C] 0
    let u := { s with rng := 1 }
    s.config.rngTable = Config.byteSource [0xA7, 0x3C] ∧ s.rng = 0 ∧ ([0xA7, 0x3C] : List Byte)[0]? = some 0xA7 ∧
      u.config.rngTable = Config.byteSource [0xA7, 0x3C] ∧ u.rng = 1 ∧ ([0xA7, 0x3C] : List Byte)[1]? = some 0x3C := by
  decide

theorem witness_EnvironmentEventsChangeTheirPart :
    ({ State.reset with events := [.setKey 15 true] } : State).nextEvent = .setKey 15 true ∧
      ({ State.reset with events := [.setPaused true] } : State).nextEvent = .setPaused true ∧
      ({ State.reset with events := [.renderAck] } : State).nextEvent = .renderAck ∧
      ({ State.reset with events := [.redraw] } : State).nextEvent = .redraw := by decide

/-- The longest image that fits. -/
theorem witness_RomLoadWritesTheImage :
    let s := { State.reset with events := [.romLoad (List.replicate 3584 1)] }
    s.nextEvent = .romLoad (List.replicate 3584 1) ∧ s.romOpen = true ∧ (List.replicate 3584 (1 : Byte)).length ≤ 3584 ∧
      s.mem.wf s.config = true :=
  ⟨rfl, rfl, by rw [List.length_replicate], by decide⟩

/-- One byte more, and a load after the first cycle. -/
theorem witness_BadRomLoadStops :
    (let s := { State.reset with events := [.romLoad (List.replicate 3585 1)] }
     s.nextEvent = .romLoad (List.replicate 3585 1) ∧ s.romOpen = true ∧
       3584 < (List.replicate 3585 (1 : Byte)).length) ∧
      (haltedWith [.romLoad []]).nextEvent = .romLoad [] ∧ (haltedWith [.romLoad []]).romOpen = false :=
  ⟨⟨rfl, rfl, by rw [List.length_replicate]; decide⟩, rfl, rfl⟩

theorem witness_NothingHappensAfterShutdown :
    ({ State.reset with events := [.shutdown] } : State).nextEvent = .shutdown := by decide

theorem witness_InstructionsWriteOnlyTheirParts : ∃ t, exec (.storeRegs 2) (withI 0x0300) = .next t := ⟨_, rfl⟩

theorem witness_InstructionsWriteOnlyTheirRegisters : ∃ t, exec (.loadRegs 2) (withI 0x0300) = .next t := ⟨_, rfl⟩

theorem witness_PcTakesAListedOutcome :
    (∃ t, exec .ret State.reset = .next t) ∧ ∃ t, exec .ret { State.reset with sp := 1 } = .next t := ⟨⟨_, rfl⟩, _, rfl⟩

theorem witness_NormalEndIsStable :
    (placed 0x1200).EndedNormally ∧ (placed 0x1200).nextEvent = .cpuCycle false :=
  ⟨⟨rfl, 0x200, by decide, by decide⟩, rfl⟩

end Sys2Proof.Tests
end

/-! # Control transfer (40_flow.md): jumps and conditional skips -/

namespace Sys2Proof.Machine

open Sys2Proof

variable {s t : State}

/-! ### The 16-bit operands as integers -/

theorem zextAddr_toNat (nnn : Addr12) : (zextAddr nnn).toNat = nnn.toNat :=
  BitVec.toNat_setWidth_of_le (by decide)

theorem zextByte_toNat (b : Byte) : (zextByte b).toNat = b.toNat :=
  BitVec.toNat_setWidth_of_le (by decide)

/-- The sum of R108 is at most 0xFFF + 0xFF, so 16 bits hold it. -/
theorem zextAddr_add_zextByte_toNat (nnn : Addr12) (b : Byte) :
    (zextAddr nnn + zextByte b).toNat = nnn.toNat + b.toNat := by
  have hsum : (zextAddr nnn).toNat + (zextByte b).toNat < 2 ^ 16 := by
    rw [zextAddr_toNat, zextByte_toNat]
    omega
  rw [BitVec.toNat_add_of_lt hsum, zextAddr_toNat, zextByte_toNat]

/-! ### Writes of PC -/

/-- Where PC may change, a jump at the end adds nothing to what changes. -/
theorem SameBut.jumpTo {parts : List Part} (h : SameBut parts s t) (hpc : Part.pc ∈ parts) (w : Word) :
    SameBut parts s (t.jumpTo w) :=
  { h with pc := fun hn => absurd hpc hn }

/-- A jump changes PC only. -/
theorem SameBut.of_jumpTo (s : State) (w : Word) : SameBut [.pc] s (s.jumpTo w) :=
  (SameBut.refl s [.pc]).jumpTo (by decide) w

/-- An instruction that skips on a check `c` skips exactly when what `c` decides is so, and changes PC only. -/
theorem skips_iff_of_exec {i : Instr} {c : Bool} {P : Prop} [Decidable P] (hexec : exec i s = .next (s.skipIf c))
    (hc : c = true ↔ P) :
    ∃ t, exec i s = .next t ∧ t.pc = (if P then s.pc + 4 else s.pc + 2) ∧ SameBut [.pc] s t :=
  have hpc : (s.skipIf c).pc = if P then s.pc + 4 else s.pc + 2 := by simp only [State.skipIf_pc, hc]
  ⟨s.skipIf c, hexec, hpc, SameBut.of_jumpTo s _⟩

/-! ### The meanings -/

theorem exec_jp (nnn : Addr12) (s : State) : exec (.jp nnn) s = .next (s.jumpTo (zextAddr nnn)) := rfl

theorem exec_jpV0 (nnn : Addr12) (s : State) :
    exec (.jpV0 nnn) s = .next (s.jumpTo (zextAddr nnn + zextByte (s.getV 0))) := rfl

theorem exec_seImm (x : Reg) (kk : Byte) (s : State) :
    exec (.seImm x kk) s = .next (s.skipIf (s.getV x == kk)) := rfl

theorem exec_sneImm (x : Reg) (kk : Byte) (s : State) :
    exec (.sneImm x kk) s = .next (s.skipIf (s.getV x != kk)) := rfl

theorem exec_seReg (x y : Reg) (s : State) :
    exec (.seReg x y) s = .next (s.skipIf (s.getV x == s.getV y)) := rfl

theorem exec_sneReg (x y : Reg) (s : State) :
    exec (.sneReg x y) s = .next (s.skipIf (s.getV x != s.getV y)) := rfl

/-! ### The statements -/

/-- Settles O19: the zero-extended address is `nnn` itself. -/
theorem jumpGoesToItsAddress : Obligations.JumpGoesToItsAddress := fun nnn s =>
  ⟨_, exec_jp nnn s, zextAddr_toNat nnn, SameBut.of_jumpTo s _⟩

/-- Settles O20: the 16-bit sum does not wrap. -/
theorem indexedJumpAddsV0 : Obligations.IndexedJumpAddsV0 := fun nnn s =>
  ⟨_, exec_jpV0 nnn s, zextAddr_add_zextByte_toNat nnn (s.getV 0), SameBut.of_jumpTo s _⟩

/-- Settles O24: both meanings are skips, on `==` and on `!=`. -/
theorem skipsOnImmediate : Obligations.SkipsOnImmediate := fun x kk s =>
  ⟨skips_iff_of_exec (exec_seImm x kk s) beq_iff_eq, skips_iff_of_exec (exec_sneImm x kk s) bne_iff_ne⟩

/-- Settles O25: both meanings are skips, on `==` and on `!=`. -/
theorem skipsOnRegisters : Obligations.SkipsOnRegisters := fun x y s =>
  ⟨skips_iff_of_exec (exec_seReg x y s) beq_iff_eq, skips_iff_of_exec (exec_sneReg x y s) bne_iff_ne⟩

end Sys2Proof.Machine

/-! # Loads and the immediate addition (41_alu.md sections 1 to 3): instructions that write one register -/

namespace Sys2Proof.Machine

open Sys2Proof

variable {s t : State}

/-! ### Writes of a register -/

/-- Where the registers may change, a register write at the end adds nothing to what changes. -/
theorem SameBut.setV {parts : List Part} (h : SameBut parts s t) (hregs : Part.regs ∈ parts) (x : Reg) (b : Byte) :
    SameBut parts s (t.setV x b) :=
  { h with regs := fun hn => absurd hregs hn }

/-- Where `x` may change, a write of `Vx` at the end adds nothing to the registers that change. -/
theorem RegsSameBut.setV {xs : List Reg} (h : RegsSameBut xs s t) {x : Reg} (hx : x ∈ xs) (b : Byte) :
    RegsSameBut xs s (t.setV x b) := fun j hj =>
  have hne : j ≠ x := fun heq => hj (heq ▸ hx)
  (State.getV_setV_ne t hne b).trans (h j hj)

/-- An instruction whose whole meaning is `V[x] <- b; PC <- PC + 2` leaves `b` in `Vx`, every other register as it was,
and changes nothing but the registers and PC. -/
theorem writesReg_of_exec {i : Instr} {x : Reg} {b : Byte} (hexec : exec i s = .next (s.setV x b).advance) :
    ∃ t, exec i s = .next t ∧ t.getV x = b ∧ t.pc = s.pc + 2 ∧ RegsSameBut [x] s t ∧ SameBut [.regs, .pc] s t :=
  have hregs : RegsSameBut [x] s (s.setV x b) := (RegsSameBut.of_v_eq rfl).setV (List.mem_singleton_self x) b
  have hrest : SameBut [.regs, .pc] s (s.setV x b) := (SameBut.refl s _).setV (by decide) x b
  ⟨(s.setV x b).advance, hexec, State.getV_setV_same s x b, rfl, hregs, hrest.jumpTo (by decide) _⟩

/-! ### The meanings -/

theorem exec_ldImm (x : Reg) (kk : Byte) (s : State) : exec (.ldImm x kk) s = .next (s.setV x kk).advance := rfl

theorem exec_addImm (x : Reg) (kk : Byte) (s : State) :
    exec (.addImm x kk) s = .next (s.setV x (s.getV x + kk)).advance := rfl

theorem exec_ldReg (x y : Reg) (s : State) : exec (.ldReg x y) s = .next (s.setV x (s.getV y)).advance := rfl

/-! ### The statements -/

/-- Settles O26: both meanings are the write of one register. -/
theorem loadsWriteTheRegister : Obligations.LoadsWriteTheRegister := fun x y kk s =>
  ⟨writesReg_of_exec (exec_ldImm x kk s), writesReg_of_exec (exec_ldReg x y s)⟩

/-- Settles O27: the one register written holds the 8-bit sum, which is the sum modulo 256. -/
theorem addImmediateWrapsWithoutAFlag : Obligations.AddImmediateWrapsWithoutAFlag := fun x kk s =>
  have ⟨t, hexec, hsum, hframe⟩ := writesReg_of_exec (exec_addImm x kk s)
  have hmod : (t.getV x).toNat = ((s.getV x).toNat + kk.toNat) % 256 := by rw [hsum, BitVec.toNat_add]
  ⟨t, hexec, hmod, hframe⟩

end Sys2Proof.Machine

/-! # Index register and memory transfer (42_index_memory.md): the load of I -/

namespace Sys2Proof.Machine

open Sys2Proof

variable {s t : State}

/-! ### Writes of I -/

/-- Where I may change, a write of I at the end adds nothing to what changes. -/
theorem SameBut.setI {parts : List Part} (h : SameBut parts s t) (hindex : Part.index ∈ parts) (w : Word) :
    SameBut parts s (t.setI w) :=
  { h with index := fun hn => absurd hindex hn }

/-- An instruction whose whole meaning is `I <- w; PC <- PC + 2` leaves `w` in I and changes nothing but I and PC. -/
theorem writesIndex_of_exec {i : Instr} {w : Word} (hexec : exec i s = .next (s.setI w).advance) :
    ∃ t, exec i s = .next t ∧ t.i = w ∧ t.pc = s.pc + 2 ∧ SameBut [.index, .pc] s t :=
  have hframe : SameBut [.index, .pc] s (s.setI w) := (SameBut.refl s _).setI (by decide) w
  ⟨(s.setI w).advance, hexec, rfl, rfl, hframe.jumpTo (by decide) _⟩

/-! ### The meaning -/

theorem exec_ldI (nnn : Addr12) (s : State) : exec (.ldI nnn) s = .next (s.setI (zextAddr nnn)).advance := rfl

/-! ### The statement -/

/-- Settles O32: I holds the zero-extended address, which is `nnn` itself. -/
theorem loadIndexTakesTheAddress : Obligations.LoadIndexTakesTheAddress := fun nnn s =>
  have ⟨t, hexec, hi, hframe⟩ := writesIndex_of_exec (exec_ldI nnn s)
  have haddr : t.i.toNat = nnn.toNat := by rw [hi, zextAddr_toNat]
  ⟨t, hexec, haddr, hframe⟩

end Sys2Proof.Machine

/-! # Display (43_display.md): the clear -/

namespace Sys2Proof.Machine

open Sys2Proof

variable {s t : State}

/-! ### Writes of the frame -/

/-- Where the frame and the dirty flag may change, a new frame marked dirty adds nothing to what changes. -/
theorem SameBut.setFrame {parts : List Part} (h : SameBut parts s t) (hframe : Part.frame ∈ parts)
    (hdirty : Part.dirty ∈ parts) (fb : Frame) : SameBut parts s { t with fb := fb, dirty := true } :=
  { h with
    frame := fun hn => absurd hframe hn
    dirty := fun hn => absurd hdirty hn }

/-- Where every row is 0, every pixel is off. -/
theorem State.pixel_of_fb_eq_replicate_zero (h : s.fb = Vector.replicate 32 0) (r : Fin 32) (c : Fin 64) :
    s.pixel r c = false := by
  have hrow : s.fb[r] = 0 := by rw [h, Fin.getElem_fin, Vector.getElem_replicate]
  rw [State.pixel, hrow]
  exact BitVec.getMsbD_zero

/-! ### The meaning -/

theorem exec_cls (s : State) :
    exec .cls s = .next { s with fb := Vector.replicate 32 0, dirty := true }.advance := rfl

/-! ### The statement -/

/-- Settles O40: the new frame has only zero rows, and the flag is set whatever the old frame was. -/
theorem clearBlanksTheDisplay : Obligations.ClearBlanksTheDisplay := fun s =>
  have hframe : SameBut [.frame, .dirty, .pc] s { s with fb := Vector.replicate 32 0, dirty := true } :=
    (SameBut.refl s _).setFrame (by decide) (by decide) _
  ⟨_, exec_cls s, State.pixel_of_fb_eq_replicate_zero rfl, rfl, rfl, hframe.jumpTo (by decide) _⟩

end Sys2Proof.Machine

/-! # Random (46_random.md): the drawn byte under the mask -/

namespace Sys2Proof.Machine

open Sys2Proof

variable {s t : State}

/-! ### The draw -/

/-- A draw gives the generator's byte. -/
@[simp] theorem State.rngDraw_fst (s : State) : s.rngDraw.1 = (s.config.rngNext s.rng).2 := rfl

/-- A draw leaves the state with the generator advanced once. -/
@[simp] theorem State.rngDraw_snd (s : State) :
    s.rngDraw.2 = { s with rng := (s.config.rngNext s.rng).1 } := rfl

/-- Where the generator may change, a new generator state adds nothing to what changes. -/
theorem SameBut.setRng {parts : List Part} (h : SameBut parts s t) (hrng : Part.rng ∈ parts) (r : Config.RngState) :
    SameBut parts s { t with rng := r } :=
  { h with rng := fun hn => absurd hrng hn }

/-- A draw changes the generator only. -/
theorem SameBut.of_rngDraw {parts : List Part} (hrng : Part.rng ∈ parts) (s : State) :
    SameBut parts s s.rngDraw.2 :=
  (SameBut.refl s parts).setRng hrng _

/-! ### The meaning -/

theorem exec_rnd (x : Reg) (kk : Byte) (s : State) :
    exec (.rnd x kk) s = .next (s.rngDraw.2.setV x (s.rngDraw.1 &&& kk)).advance := rfl

/-! ### The statement -/

/-- Settles O50: after the draw, the meaning is the write of one register. -/
theorem randomIsTheDrawnByteUnderMask : Obligations.RandomIsTheDrawnByteUnderMask := fun x kk s =>
  have hdraw : RegsSameBut [x] s s.rngDraw.2 := RegsSameBut.of_v_eq (by rw [State.rngDraw_snd])
  have hbyte : (s.rngDraw.2.setV x (s.rngDraw.1 &&& kk)).getV x = (s.config.rngNext s.rng).2 &&& kk := by
    rw [State.getV_setV_same, State.rngDraw_fst]
  have hframe : SameBut [.regs, .rng, .pc] s (s.rngDraw.2.setV x (s.rngDraw.1 &&& kk)) :=
    (SameBut.of_rngDraw (by decide) s).setV (by decide) x _
  ⟨_, exec_rnd x kk s, hbyte, rfl, rfl,
    hdraw.setV (List.mem_singleton_self x) _, hframe.jumpTo (by decide) _⟩

end Sys2Proof.Machine

/-! # Encoding (30_encoding.md): the decoder and the encoder are inverse, and the decoder accepts exactly the words of
the opcode map -/

namespace Sys2Proof

/-! ### Decoding an encoded word -/

/-- The decoder reads back the word of every well-formed instruction. The fields of an encoded word are those it was
built from, so each word comes to its own arm of the decoder. -/
theorem decodeWord_encodeWord (i : Instr) (h : i.wellFormed = true) : decodeWord (encodeWord i) = .ok i := by
  cases i
  case cls | ret => rfl
  case jp | call | ldI | jpV0 => simp [encodeWord, decodeWord, op_append_nnn, fieldNNN_append]
  case seImm | sneImm | ldImm | addImm | rnd =>
    simp [encodeWord, decodeWord, op_encodeI, fieldX_encodeI, fieldKK_encodeI]
  case seReg | sneReg => simp [encodeWord, decodeWord, op_encodeR, fieldX_encodeR, fieldY_encodeR, fieldN_encodeR]
  case ldReg | orReg | andReg | xorReg | addReg | subReg | shr | subnReg | shl =>
    simp [encodeWord, decodeWord, decodeGroup8, op_encodeR, fieldX_encodeR, fieldY_encodeR, fieldN_encodeR]
  case skp | sknp => simp [encodeWord, decodeWord, decodeGroupE, op_encodeI, fieldX_encodeI, fieldKK_encodeI]
  case ldVxDT | ldVxK | ldDTVx | ldSTVx | addI | ldF | ldB | storeRegs | loadRegs =>
    simp [encodeWord, decodeWord, decodeGroupF, op_encodeI, fieldX_encodeI, fieldKK_encodeI]
  case drw x y n =>
    have hn : n < 16 := Nat.lt_succ_of_le (of_decide_eq_true h)
    simp [encodeWord, decodeWord, op_encodeR, fieldX_encodeR, fieldY_encodeR, fieldN_encodeR, Nat.mod_eq_of_lt hn]

/-- Settles O2: decoding the bytes is decoding the word, which gives the instruction back. -/
theorem decodeOfEncodeIsTheInstruction : Obligations.DecodeOfEncodeIsTheInstruction := by
  intro i rest h
  rw [decode_encode, decodeWord_encodeWord i h]

/-! ### Encoding a decoded word -/

/-- The group digit that no arm of the decoder names is 0xF. -/
theorem Word.op_eq_F {w : Word} (h : ∀ k : Fin 15, w.op ≠ BitVec.ofNat 4 k.val) : w.op = 0xF := by
  revert h
  generalize w.op = b
  revert b
  decide

/-- An instruction whose encoding is the word it was decoded from. -/
def Instr.IsOf (i : Instr) (w : Word) : Prop := i.wellFormed = true ∧ encodeWord i = w

theorem encodeI_of_fields {w : Word} {op : BitVec 4} (hop : w.op = op) : encodeI op w.fieldX w.fieldKK = w :=
  hop ▸ encodeI_fields w

theorem encodeI_of_kk {w : Word} {op : BitVec 4} {kk : Byte} (hop : w.op = op) (hkk : w.fieldKK = kk) :
    encodeI op w.fieldX kk = w := hkk ▸ encodeI_of_fields hop

theorem encodeR_of_n {w : Word} {op n : BitVec 4} (hop : w.op = op) (hn : w.fieldN = n) :
    encodeR op w.fieldX w.fieldY n = w := by
  rw [← hop, ← hn]
  exact encodeR_fields w

theorem append_of_nnn {w : Word} {op : BitVec 4} (hop : w.op = op) : op ++ w.fieldNNN = w := hop ▸ append_fields w

theorem isOf_of_decodeGroup0 {w : Word} {i : Instr} (hop : w.op = 0) (h : decodeGroup0 w = .ok i) : i.IsOf w := by
  unfold decodeGroup0 at h
  split at h <;> cases h
  case h_1 hn => exact ⟨rfl, by rw [← append_of_nnn hop, hn]; rfl⟩
  case h_2 hn => exact ⟨rfl, by rw [← append_of_nnn hop, hn]; rfl⟩

theorem isOf_of_decodeGroup8 {w : Word} {i : Instr} (hop : w.op = 8) (h : decodeGroup8 w = .ok i) : i.IsOf w := by
  unfold decodeGroup8 at h
  split at h <;> cases h <;> exact ⟨rfl, encodeR_of_n hop ‹_›⟩

theorem isOf_of_decodeGroupE {w : Word} {i : Instr} (hop : w.op = 0xE) (h : decodeGroupE w = .ok i) : i.IsOf w := by
  unfold decodeGroupE at h
  split at h <;> cases h <;> exact ⟨rfl, encodeI_of_kk hop ‹_›⟩

theorem isOf_of_decodeGroupF {w : Word} {i : Instr} (hop : w.op = 0xF) (h : decodeGroupF w = .ok i) : i.IsOf w := by
  unfold decodeGroupF at h
  split at h <;> cases h <;> exact ⟨rfl, encodeI_of_kk hop ‹_›⟩

/-- Every arm of the decoder names the row the word stands in and takes its fields whole, so encoding gives the word
back. -/
theorem isOf_of_decodeWord {w : Word} {i : Instr} (h : decodeWord w = .ok i) : i.IsOf w := by
  unfold decodeWord at h
  split at h
  case h_1 hop => exact isOf_of_decodeGroup0 hop h
  case h_2 hop | h_3 hop | h_11 hop | h_12 hop => cases h; exact ⟨rfl, append_of_nnn hop⟩
  case h_4 hop | h_5 hop | h_7 hop | h_8 hop | h_13 hop => cases h; exact ⟨rfl, encodeI_of_fields hop⟩
  case h_6 hop | h_10 hop =>
    split at h <;> cases h
    exact ⟨rfl, encodeR_of_n hop ‹_›⟩
  case h_9 hop => exact isOf_of_decodeGroup8 hop h
  case h_14 hop =>
    cases h
    exact ⟨decide_eq_true (Nat.le_of_lt_succ w.fieldN.isLt), encodeR_of_n hop (by simp)⟩
  case h_15 hop => exact isOf_of_decodeGroupE hop h
  case h_16 =>
    exact isOf_of_decodeGroupF (Word.op_eq_F fun k => by fin_cases k <;> assumption) h

/-- Settles O3: what the word decodes to is well formed and encodes to the word. -/
theorem encodeOfDecodeIsTheWord : Obligations.EncodeOfDecodeIsTheWord := fun _ _ h => isOf_of_decodeWord h

/-! ### The rows of the opcode map -/

theorem Instr.pattern_mem_table (i : Instr) : i.pattern ∈ Pattern.table := by
  cases i <;> simp [Instr.pattern, Pattern.table]

/-- The word of an instruction selects the instruction's row. -/
theorem Instr.pattern_selects_encodeWord : ∀ i : Instr, i.pattern.selects (encodeWord i) = true
  | .cls => Laws.FixedDigits.cls
  | .ret => Laws.FixedDigits.ret
  | .jp nnn => Laws.FixedDigits.jp nnn
  | .call nnn => Laws.FixedDigits.call nnn
  | .seImm x kk => Laws.FixedDigits.seImm x kk
  | .sneImm x kk => Laws.FixedDigits.sneImm x kk
  | .seReg x y => Laws.FixedDigits.seReg x y
  | .ldImm x kk => Laws.FixedDigits.ldImm x kk
  | .addImm x kk => Laws.FixedDigits.addImm x kk
  | .ldReg x y => Laws.FixedDigits.ldReg x y
  | .orReg x y => Laws.FixedDigits.orReg x y
  | .andReg x y => Laws.FixedDigits.andReg x y
  | .xorReg x y => Laws.FixedDigits.xorReg x y
  | .addReg x y => Laws.FixedDigits.addReg x y
  | .subReg x y => Laws.FixedDigits.subReg x y
  | .shr x y => Laws.FixedDigits.shr x y
  | .subnReg x y => Laws.FixedDigits.subnReg x y
  | .shl x y => Laws.FixedDigits.shl x y
  | .sneReg x y => Laws.FixedDigits.sneReg x y
  | .ldI nnn => Laws.FixedDigits.ldI nnn
  | .jpV0 nnn => Laws.FixedDigits.jpV0 nnn
  | .rnd x kk => Laws.FixedDigits.rnd x kk
  | .drw x y n => Laws.FixedDigits.drw x y n
  | .skp x => Laws.FixedDigits.skp x
  | .sknp x => Laws.FixedDigits.sknp x
  | .ldVxDT x => Laws.FixedDigits.ldVxDT x
  | .ldVxK x => Laws.FixedDigits.ldVxK x
  | .ldDTVx x => Laws.FixedDigits.ldDTVx x
  | .ldSTVx x => Laws.FixedDigits.ldSTVx x
  | .addI x => Laws.FixedDigits.addI x
  | .ldF x => Laws.FixedDigits.ldF x
  | .ldB x => Laws.FixedDigits.ldB x
  | .storeRegs x => Laws.FixedDigits.storeRegs x
  | .loadRegs x => Laws.FixedDigits.loadRegs x

theorem Pattern.selects_iff {mask bits w : Word} : (Pattern.mk mask bits).selects w = true ↔ w &&& mask = bits :=
  beq_iff_eq

/-- A word that selects a row of mask 0xFFFF is the row's word. -/
theorem eq_of_selects {w bits : Word} (h : (Pattern.mk 0xFFFF bits).selects w = true) : w = bits :=
  (BitVec.and_allOnes (x := w)).symm.trans (Pattern.selects_iff.1 h)

/-- A word that selects a row of mask 0xF000 has the row's group digit. -/
theorem op_of_selects {w bits : Word} (h : (Pattern.mk 0xF000 bits).selects w = true) : w.op = bits.op := by
  rw [Pattern.selects_iff, and_F000] at h
  rw [← h, op_append_nnn]

/-- A word that selects a row of mask 0xF00F has the row's group digit and low nibble. -/
theorem op_fieldN_of_selects {w bits : Word} (h : (Pattern.mk 0xF00F bits).selects w = true) :
    w.op = bits.op ∧ w.fieldN = bits.fieldN := by
  rw [Pattern.selects_iff, and_F00F] at h
  rw [← h, op_encodeR, fieldN_encodeR]
  exact ⟨rfl, rfl⟩

/-- A word that selects a row of mask 0xF0FF has the row's group digit and low byte. -/
theorem op_fieldKK_of_selects {w bits : Word} (h : (Pattern.mk 0xF0FF bits).selects w = true) :
    w.op = bits.op ∧ w.fieldKK = bits.fieldKK := by
  rw [Pattern.selects_iff, and_F0FF] at h
  rw [← h, op_encodeI, fieldKK_encodeI]
  exact ⟨rfl, rfl⟩

/-- A word that selects the row of an instruction decodes: the fixed digits of the row lead to the row's arm. -/
theorem decodes_of_selects_pattern (i : Instr) {w : Word} (h : i.pattern.selects w = true) :
    ∃ j, decodeWord w = .ok j := by
  cases i
  case cls => exact ⟨.cls, by rw [eq_of_selects h]; rfl⟩
  case ret => exact ⟨.ret, by rw [eq_of_selects h]; rfl⟩
  case jp | call | seImm | sneImm | ldImm | addImm | ldI | jpV0 | rnd | drw =>
    have hop := op_of_selects h
    exact ⟨_, by rw [decodeWord, hop]; rfl⟩
  case seReg | sneReg =>
    have ⟨hop, hn⟩ := op_fieldN_of_selects h
    exact ⟨_, by rw [decodeWord, hop, hn]; rfl⟩
  case ldReg | orReg | andReg | xorReg | addReg | subReg | shr | subnReg | shl =>
    have ⟨hop, hn⟩ := op_fieldN_of_selects h
    exact ⟨_, by rw [decodeWord, hop, decodeGroup8, hn]; rfl⟩
  case skp | sknp =>
    have ⟨hop, hkk⟩ := op_fieldKK_of_selects h
    exact ⟨_, by rw [decodeWord, hop, decodeGroupE, hkk]; rfl⟩
  case ldVxDT | ldVxK | ldDTVx | ldSTVx | addI | ldF | ldB | storeRegs | loadRegs =>
    have ⟨hop, hkk⟩ := op_fieldKK_of_selects h
    exact ⟨_, by rw [decodeWord, hop, decodeGroupF, hkk]; rfl⟩

/-- Every row is the row of an instruction. -/
theorem Pattern.exists_instr {p : Pattern} (hp : p ∈ Pattern.table) : ∃ i : Instr, i.pattern = p := by
  revert p
  simp only [Pattern.table, List.cons_append, List.nil_append, List.forall_mem_cons]
  exact ⟨⟨.cls, rfl⟩, ⟨.ret, rfl⟩, ⟨.jp 0, rfl⟩, ⟨.call 0, rfl⟩, ⟨.seImm 0 0, rfl⟩, ⟨.sneImm 0 0, rfl⟩,
    ⟨.seReg 0 0, rfl⟩, ⟨.ldImm 0 0, rfl⟩, ⟨.addImm 0 0, rfl⟩, ⟨.ldReg 0 0, rfl⟩, ⟨.orReg 0 0, rfl⟩,
    ⟨.andReg 0 0, rfl⟩, ⟨.xorReg 0 0, rfl⟩, ⟨.addReg 0 0, rfl⟩, ⟨.subReg 0 0, rfl⟩, ⟨.shr 0 0, rfl⟩,
    ⟨.subnReg 0 0, rfl⟩, ⟨.shl 0 0, rfl⟩, ⟨.sneReg 0 0, rfl⟩, ⟨.ldI 0, rfl⟩, ⟨.jpV0 0, rfl⟩, ⟨.rnd 0 0, rfl⟩,
    ⟨.drw 0 0 0, rfl⟩, ⟨.skp 0, rfl⟩, ⟨.sknp 0, rfl⟩, ⟨.ldVxDT 0, rfl⟩, ⟨.ldVxK 0, rfl⟩, ⟨.ldDTVx 0, rfl⟩,
    ⟨.ldSTVx 0, rfl⟩, ⟨.addI 0, rfl⟩, ⟨.ldF 0, rfl⟩, ⟨.ldB 0, rfl⟩, ⟨.storeRegs 0, rfl⟩, ⟨.loadRegs 0, rfl⟩,
    nofun⟩

theorem Word.legal_iff {w : Word} : w.legal = true ↔ ∃ p ∈ Pattern.table, p.selects w = true := List.any_eq_true

/-- The decoder rejects a word in one way. -/
theorem decodeWord_error {w : Word} {e : DecodeError} (h : decodeWord w = .error e) : e = .illegalOpcode w := by
  unfold decodeWord at h
  split at h
  case h_1 => unfold decodeGroup0 at h; split at h <;> cases h; rfl
  case h_6 | h_10 => split at h <;> cases h; rfl
  case h_9 => unfold decodeGroup8 at h; split at h <;> cases h; rfl
  case h_15 => unfold decodeGroupE at h; split at h <;> cases h; rfl
  case h_16 => unfold decodeGroupF at h; split at h <;> cases h; rfl
  all_goals cases h

/-- A word that decodes selects the row of its instruction. -/
theorem pattern_selects_of_decodeWord {w : Word} {i : Instr} (h : decodeWord w = .ok i) :
    i.pattern.selects w = true := by
  obtain ⟨-, rfl⟩ := isOf_of_decodeWord h
  exact i.pattern_selects_encodeWord

/-- A word that selects no row is rejected as an illegal opcode. -/
theorem decodeWord_illegal {w : Word} (h : w.legal = false) : decodeWord w = .error (.illegalOpcode w) := by
  cases hd : decodeWord w with
  | error e => rw [decodeWord_error hd]
  | ok i =>
    have hlegal : w.legal = true := Word.legal_iff.2 ⟨_, i.pattern_mem_table, pattern_selects_of_decodeWord hd⟩
    exact absurd hlegal (by simp [h])

/-- Rows of the table that agree in the digits both fix are the same row (R75). -/
theorem Pattern.eq_of_fixed_eq : ∀ p ∈ Pattern.table, ∀ q ∈ Pattern.table,
    p.bits &&& q.mask = q.bits &&& p.mask → p = q := by decide

/-- The digits that two rows fix are the digits of any word that selects both. -/
theorem Pattern.fixed_eq_of_selects {p q : Pattern} {w : Word} (hp : p.selects w = true) (hq : q.selects w = true) :
    p.bits &&& q.mask = q.bits &&& p.mask := by
  rw [← Pattern.selects_iff.1 hp, ← Pattern.selects_iff.1 hq, BitVec.and_assoc, BitVec.and_assoc,
    BitVec.and_comm p.mask]

/-- Settles O4: the word of a row leads the decoder to an instruction, whose row the word selects; the decoder has one
error; and rows that one word selects agree in the digits both fix, as different rows do not. -/
theorem wordDecodesExactlyWhenItSelectsARow : Obligations.WordDecodesExactlyWhenItSelectsARow := by
  refine ⟨fun w hw => ?_, fun w => decodeWord_illegal, fun w p q hp hq hpw hqw => ?_⟩
  · obtain ⟨p, hp, hpw⟩ := Word.legal_iff.1 hw
    obtain ⟨i, rfl⟩ := Pattern.exists_instr hp
    obtain ⟨j, hj⟩ := decodes_of_selects_pattern i hpw
    exact ⟨j, hj, j.pattern_mem_table, pattern_selects_of_decodeWord hj⟩
  · exact Pattern.eq_of_fixed_eq p hp q hq (Pattern.fixed_eq_of_selects hpw hqw)

/-- Settles O1: each word is run through the decoder. -/
theorem decodesWordsOfEveryFamily : Obligations.DecodesWordsOfEveryFamily := by
  unfold Obligations.DecodesWordsOfEveryFamily
  decide

end Sys2Proof

/-! # What an instruction does: it raises the fault the table of R171 gives it, or it completes inside its row of the
opcode map (10_state.md section 10, 30_encoding.md section 3, 60_exceptions.md section 1) -/

namespace Sys2Proof.Machine

open Sys2Proof

variable {s t u : State} {parts : List Part} {xs : List Reg} {i : Instr}

/-! ### The fault table -/

/-- Settles O11: each row of the table of R171 is the check of its instruction, which then raises. -/
theorem faultingInstructionOnlyHalts : Obligations.FaultingInstructionOnlyHalts := by
  intro i s c h
  cases h with
  | stackOverflow nnn s h => exact exec_call_full h
  | stackUnderflow s h => exact exec_ret_empty h
  | drawOutside x y n s h => exact exec_drw_outside (State.transferOutside_iff.1 h)
  | digitsOutside x s h => exact exec_ldB_outside (State.transferOutside_iff.1 h)
  | storeOutside x s h => exact exec_storeRegs_outside (State.transferOutside_iff.1 h)
  | loadOutside x s h => exact exec_loadRegs_outside (State.transferOutside_iff.1 h)
  | keyDownIndex x s h => exact exec_skp_noKey (State.keyOf?_none.2 h)
  | keyUpIndex x s h => exact exec_sknp_noKey (State.keyOf?_none.2 h)

/-! ### Writes inside given parts -/

/-- The writes of an instruction that completes: from `s` to `t` only the listed parts and registers change, the halt
status stays, memory stays canonical, and a stack entry in use is an old one or the address of the instruction. -/
structure Writes (parts : List Part) (xs : List Reg) (s t : State) : Prop where
  same : SameBut parts s t
  regs : RegsSameBut xs s t
  halted : t.halted = s.halted
  haltCause : t.haltCause = s.haltCause
  memory : s.mem.wf s.config = true → t.mem.wf t.config = true
  returns : ∀ k : Fin 16, k.val < t.sp.val → t.stack[k] = s.pc ∨ k.val < s.sp.val ∧ t.stack[k] = s.stack[k]

theorem Writes.refl (parts : List Part) (xs : List Reg) (s : State) : Writes parts xs s s where
  same := SameBut.refl s parts
  regs _ _ := rfl
  halted := rfl
  haltCause := rfl
  memory := id
  returns _ hk := .inr ⟨hk, rfl⟩

theorem Writes.setV (h : Writes parts xs s t) (hregs : Part.regs ∈ parts) {x : Reg} (hx : x ∈ xs) (b : Byte) :
    Writes parts xs s (t.setV x b) :=
  { h with same := h.same.setV hregs x b, regs := h.regs.setV hx b }

theorem Writes.setFlag (h : Writes parts xs s t) (hregs : Part.regs ∈ parts) (hx : VF ∈ xs) (c : Bool) :
    Writes parts xs s (t.setFlag c) := h.setV hregs hx (flagByte c)

theorem Writes.setI (h : Writes parts xs s t) (hindex : Part.index ∈ parts) (w : Word) : Writes parts xs s (t.setI w) :=
  { h with same := h.same.setI hindex w }

theorem Writes.jumpTo (h : Writes parts xs s t) (hpc : Part.pc ∈ parts) (w : Word) : Writes parts xs s (t.jumpTo w) :=
  { h with same := h.same.jumpTo hpc w }

theorem Writes.advance (h : Writes parts xs s t) (hpc : Part.pc ∈ parts) : Writes parts xs s t.advance := h.jumpTo hpc _

theorem Writes.setFrame (h : Writes parts xs s t) (hframe : Part.frame ∈ parts) (hdirty : Part.dirty ∈ parts)
    (fb : Frame) : Writes parts xs s { t with fb := fb, dirty := true } :=
  { h with same := h.same.setFrame hframe hdirty fb }

theorem Writes.setRng (h : Writes parts xs s t) (hrng : Part.rng ∈ parts) (r : Config.RngState) :
    Writes parts xs s { t with rng := r } :=
  { h with same := h.same.setRng hrng r }

theorem Writes.setDelay (h : Writes parts xs s t) (hdelay : Part.delay ∈ parts) (b : Byte) :
    Writes parts xs s { t with dt := b } :=
  { h with same := { h.same with delay := fun hn => absurd hdelay hn } }

theorem Writes.setSound (h : Writes parts xs s t) (hsound : Part.sound ∈ parts) (b : Byte) :
    Writes parts xs s { t with st := b } :=
  { h with same := { h.same with sound := fun hn => absurd hsound hn } }

theorem Writes.storeBytes (h : Writes parts xs s t) (hmemory : Part.memory ∈ parts) {a : Nat} {bs : List Byte}
    (ha : a + bs.length ≤ Config.memSize) : Writes parts xs s (t.storeBytes a bs) :=
  { h with
    same := { h.same with memory := fun hn => absurd hmemory hn }
    memory := fun hm => State.wf_storeBytes (h.memory hm) ha }

/-- A new register file that keeps every register outside the list. -/
theorem Writes.setRegs (h : Writes parts xs s t) (hregs : Part.regs ∈ parts) {v : Vector Byte 16}
    (hv : RegsSameBut xs t { t with v := v }) : Writes parts xs s { t with v := v } :=
  { h with
    same := { h.same with regs := fun hn => absurd hregs hn }
    regs := fun j hj => (hv j hj).trans (h.regs j hj) }

theorem RegsSameBut.of_setRegsUpTo {x : Reg} (hx : ∀ j : Reg, j ≤ x → j ∈ xs) (bs : List Byte) :
    RegsSameBut xs t (t.setRegsUpTo x bs) := fun j hj => by
  rw [State.getV_setRegsUpTo, if_neg fun hle => hj (hx j hle)]

theorem Writes.setRegsUpTo (h : Writes parts xs s t) (hregs : Part.regs ∈ parts) {x : Reg}
    (hx : ∀ j : Reg, j ≤ x → j ∈ xs) (bs : List Byte) : Writes parts xs s (t.setRegsUpTo x bs) :=
  h.setRegs hregs (RegsSameBut.of_setRegsUpTo hx bs)

/-- A push of the instruction's own address. -/
theorem Writes.push (hstack : Part.stack ∈ parts) (h : s.push? s.pc = some t) : Writes parts xs s t := by
  obtain ⟨-, hsp, hstk, ht⟩ := State.push?_some h
  rw [ht]
  refine { Writes.refl parts xs s with
    same := { SameBut.refl s parts with stack := fun hn => absurd hstack hn }
    returns := fun k hk => ?_ }
  rw [hstk k]
  split
  · exact .inl rfl
  · next hne => exact .inr ⟨by rw [hsp] at hk; omega, rfl⟩

theorem Writes.pop {w : Word} (hstack : Part.stack ∈ parts) (h : s.pop? = some (w, t)) : Writes parts xs s t := by
  obtain ⟨j, hj, -, hsp, ht⟩ := State.pop?_some h
  rw [ht]
  exact { Writes.refl parts xs s with
    same := { SameBut.refl s parts with stack := fun hn => absurd hstack hn }
    returns := fun k hk => .inr ⟨by rw [hsp] at hk; omega, rfl⟩ }

/-! ### Completion -/

/-- What an instruction that raises no fault does: it writes inside its row and leaves in PC a value of its PC
column. -/
structure Completes (i : Instr) (s t : State) : Prop where
  noFault : ∀ c, ¬ Raises i s c
  writes : Writes (partsOf i) (destsOf i) s t
  pc : t.pc ∈ pcOutcomesOf i s

/-- An instruction raises a fault of the table of R171, or it completes. -/
def FaultsOrCompletes (i : Instr) (s : State) : Prop :=
  (∃ c, Raises i s c) ∨ ∃ t, exec i s = .next t ∧ Completes i s t

theorem VF_mem_pair (x : Reg) : VF ∈ [x, VF] := List.mem_cons_of_mem _ List.mem_cons_self

theorem pc_mem_partsOf (i : Instr) : Part.pc ∈ partsOf i := by cases i <;> simp [partsOf]

/-- An instruction that writes inside its row and then advances, with no fault to raise. -/
theorem FaultsOrCompletes.of_advance (hexec : exec i s = .next t.advance) (hfault : ∀ c, ¬ Raises i s c)
    (hwrites : Writes (partsOf i) (destsOf i) s t) (hpc : t.advance.pc ∈ pcOutcomesOf i s) : FaultsOrCompletes i s :=
  .inr ⟨_, hexec, hfault, hwrites.advance (pc_mem_partsOf i), hpc⟩

theorem State.skipIf_pc_mem (s : State) (c : Bool) : (s.skipIf c).pc ∈ [s.pc + 4, s.pc + 2] := by
  cases c <;> simp

/-! ### The instructions that can fault -/

theorem ret_faultsOrCompletes (s : State) : FaultsOrCompletes .ret s := by
  cases hpop : s.pop? with
  | none => exact .inl ⟨_, .stackUnderflow s (State.pop?_none.1 hpop)⟩
  | some p =>
    obtain ⟨w, t⟩ := p
    obtain ⟨k, hk, hw, -⟩ := State.pop?_some hpop
    refine .inr ⟨_, exec_ret_pop hpop, ?_, (Writes.pop (by decide) hpop).jumpTo (by decide) _, ?_⟩
    · rintro c ⟨⟩
      omega
    · simp [pcOutcomesOf, hw, ← hk]

theorem call_faultsOrCompletes (nnn : Addr12) (s : State) : FaultsOrCompletes (.call nnn) s := by
  cases hpush : s.push? s.pc with
  | none => exact .inl ⟨_, .stackOverflow nnn s ((State.push?_none s.pc).1 hpush)⟩
  | some t =>
    obtain ⟨hsp, -⟩ := State.push?_some hpush
    refine .inr ⟨_, exec_call_push hpush, ?_, ?_, List.mem_singleton_self _⟩
    · rintro c ⟨⟩
      omega
    · exact (Writes.push (by simp [partsOf]) hpush).jumpTo (pc_mem_partsOf _) _

theorem drw_faultsOrCompletes (x y : Reg) (n : Nat) (s : State) : FaultsOrCompletes (.drw x y n) s := by
  by_cases h : s.transferOutside n
  · exact .inl ⟨_, .drawOutside x y n s h⟩
  · refine .of_advance (exec_drw_inside (State.not_transferOutside_iff.1 h)) ?_ ?_ (List.mem_singleton_self _)
    · rintro c ⟨⟩
      exact h ‹_›
    · exact ((Writes.refl _ _ s).setFrame (by simp [partsOf]) (by simp [partsOf]) _).setFlag (by simp [partsOf])
        (by simp [destsOf]) _

/-- The bytes of a transfer that is not outside end inside memory. -/
theorem State.base_add_le_of_inside {m : Nat} (hm : m ≠ 0) (h : ¬ s.transferOutside m) :
    s.base + m ≤ Config.memSize :=
  (State.outOfRange_false.1 (State.not_transferOutside_iff.1 h)).resolve_left hm

theorem ldB_faultsOrCompletes (x : Reg) (s : State) : FaultsOrCompletes (.ldB x) s := by
  by_cases h : s.transferOutside 3
  · exact .inl ⟨_, .digitsOutside x s h⟩
  · have hlen : s.base + (bcd (s.getV x)).length ≤ Config.memSize :=
      State.base_add_le_of_inside (Nat.succ_ne_zero 2) h
    refine .of_advance (exec_ldB_inside (State.not_transferOutside_iff.1 h)) ?_ ?_ (List.mem_singleton_self _)
    · rintro c ⟨⟩
      exact h ‹_›
    · exact (Writes.refl _ _ s).storeBytes (by simp [partsOf]) hlen

theorem storeRegs_faultsOrCompletes (x : Reg) (s : State) : FaultsOrCompletes (.storeRegs x) s := by
  by_cases h : s.transferOutside (x.val + 1)
  · exact .inl ⟨_, .storeOutside x s h⟩
  · have hlen : s.base + (s.regsUpTo x).length ≤ Config.memSize := by
      rw [State.length_regsUpTo]
      exact State.base_add_le_of_inside (Nat.succ_ne_zero _) h
    refine .of_advance (exec_storeRegs_inside (State.not_transferOutside_iff.1 h)) ?_ ?_ (List.mem_singleton_self _)
    · rintro c ⟨⟩
      exact h ‹_›
    · exact ((Writes.refl _ _ s).storeBytes (by simp [partsOf]) hlen).setI (by simp [partsOf]) _

theorem loadRegs_faultsOrCompletes (x : Reg) (s : State) : FaultsOrCompletes (.loadRegs x) s := by
  by_cases h : s.transferOutside (x.val + 1)
  · exact .inl ⟨_, .loadOutside x s h⟩
  · have hdests : ∀ j : Reg, j ≤ x → j ∈ destsOf (.loadRegs x) := fun j hj => by simp [destsOf, hj]
    refine .of_advance (exec_loadRegs_inside (State.not_transferOutside_iff.1 h)) ?_ ?_ ?_
    · rintro c ⟨⟩
      exact h ‹_›
    · exact ((Writes.refl _ _ s).setRegsUpTo (by simp [partsOf]) hdests _).setI (by simp [partsOf]) _
    · simp [pcOutcomesOf]

theorem skp_faultsOrCompletes (x : Reg) (s : State) : FaultsOrCompletes (.skp x) s := by
  cases h : s.keyOf? x with
  | none => exact .inl ⟨_, .keyDownIndex x s (State.keyOf?_none.1 h)⟩
  | some down =>
    refine .inr ⟨_, exec_skp_key h, ?_, (Writes.refl _ _ s).jumpTo (pc_mem_partsOf _) _, s.skipIf_pc_mem _⟩
    rintro c ⟨⟩
    simp [State.keyOf?_none.2 ‹_›] at h

theorem sknp_faultsOrCompletes (x : Reg) (s : State) : FaultsOrCompletes (.sknp x) s := by
  cases h : s.keyOf? x with
  | none => exact .inl ⟨_, .keyUpIndex x s (State.keyOf?_none.1 h)⟩
  | some down =>
    refine .inr ⟨_, exec_sknp_key h, ?_, (Writes.refl _ _ s).jumpTo (pc_mem_partsOf _) _, s.skipIf_pc_mem _⟩
    rintro c ⟨⟩
    simp [State.keyOf?_none.2 ‹_›] at h

/-! ### All 34 instructions -/

theorem ldVxK_faultsOrCompletes (x : Reg) (s : State) : FaultsOrCompletes (.ldVxK x) s := by
  cases h : s.leastKey? with
  | none => exact .inr ⟨s, exec_ldVxK_wait h, nofun, Writes.refl _ _ s, by simp [pcOutcomesOf]⟩
  | some k =>
    exact .of_advance (exec_ldVxK_key h) nofun ((Writes.refl _ _ s).setV (by simp [partsOf]) (by simp [destsOf]) _)
      List.mem_cons_self

/-- The meanings as chains of writes: each case names the writes of its instructions, in their order. -/
theorem exec_faultsOrCompletes (i : Instr) (s : State) : FaultsOrCompletes i s := by
  have start := Writes.refl (partsOf i) (destsOf i) s
  cases i
  case ret => exact ret_faultsOrCompletes s
  case call nnn => exact call_faultsOrCompletes nnn s
  case drw x y n => exact drw_faultsOrCompletes x y n s
  case ldB x => exact ldB_faultsOrCompletes x s
  case storeRegs x => exact storeRegs_faultsOrCompletes x s
  case loadRegs x => exact loadRegs_faultsOrCompletes x s
  case skp x => exact skp_faultsOrCompletes x s
  case sknp x => exact sknp_faultsOrCompletes x s
  case ldVxK x => exact ldVxK_faultsOrCompletes x s
  case cls =>
    exact .of_advance (exec_cls s) nofun (start.setFrame (by decide) (by decide) _) (List.mem_singleton_self _)
  case jp | jpV0 => exact .inr ⟨_, rfl, nofun, start.jumpTo (pc_mem_partsOf _) _, List.mem_singleton_self _⟩
  case seImm | sneImm | seReg | sneReg =>
    exact .inr ⟨_, rfl, nofun, start.jumpTo (pc_mem_partsOf _) _, s.skipIf_pc_mem _⟩
  case ldImm | addImm | ldReg | ldVxDT =>
    exact .of_advance rfl nofun (start.setV (by simp [partsOf]) List.mem_cons_self _) (List.mem_singleton_self _)
  case orReg | andReg | xorReg | addReg =>
    exact .of_advance rfl nofun ((start.setV (by simp [partsOf]) List.mem_cons_self _).setFlag (by simp [partsOf])
      (VF_mem_pair _) _) (List.mem_singleton_self _)
  case subReg | shr | subnReg | shl =>
    exact .of_advance rfl nofun ((start.setFlag (by simp [partsOf]) (VF_mem_pair _) _).setV (by simp [partsOf])
      List.mem_cons_self _) (List.mem_singleton_self _)
  case ldI | ldF => exact .of_advance rfl nofun (start.setI (by simp [partsOf]) _) (List.mem_singleton_self _)
  case addI =>
    exact .of_advance rfl nofun ((start.setI (by simp [partsOf]) _).setFlag (by simp [partsOf]) List.mem_cons_self _)
      (List.mem_singleton_self _)
  case rnd x kk =>
    exact .of_advance (exec_rnd x kk s) nofun
      ((start.setRng (by simp [partsOf]) _).setV (by simp [partsOf]) List.mem_cons_self _) (List.mem_singleton_self _)
  case ldDTVx => exact .of_advance rfl nofun (start.setDelay (by simp [partsOf]) _) (List.mem_singleton_self _)
  case ldSTVx => exact .of_advance rfl nofun (start.setSound (by simp [partsOf]) _) (List.mem_singleton_self _)

end Sys2Proof.Machine

/-! # What holds of all 34 instructions (10_state.md sections 1, 2, 10 and 12, 60_exceptions.md section 1) -/

namespace Sys2Proof.Machine

open Sys2Proof

variable {s t : State} {i : Instr} {c : HaltCause}

/-! ### Raising a fault -/

theorem Raises.ne_none (h : Raises i s c) : c ≠ .none := by cases h <;> exact HaltCause.noConfusion

theorem Raises.halt_mem_partsOf (h : Raises i s c) : Part.halt ∈ partsOf i := by cases h <;> simp [partsOf]

theorem SameBut.raise {parts : List Part} (hhalt : Part.halt ∈ parts) (s : State) (c : HaltCause) :
    SameBut parts s (s.raise c) :=
  { SameBut.refl s parts with halt := fun hn => absurd hhalt hn }

/-! ### What a next state is -/

/-- A next state of an instruction is the state with the halt status of a fault of R171, or the instruction
completed. -/
theorem exec_next_cases (h : exec i s = .next t) : (∃ c, Raises i s c ∧ t = s.raise c) ∨ Completes i s t := by
  rcases exec_faultsOrCompletes i s with ⟨c, hc⟩ | ⟨u, he, hu⟩
  · cases (faultingInstructionOnlyHalts i s c hc).symm.trans h
    exact .inl ⟨c, hc, rfl⟩
  · cases he.symm.trans h
    exact .inr hu

/-- Settles O12: with no fault to raise, what is left is to complete, and completing leaves the halt status. -/
theorem otherInstructionsComplete : Obligations.OtherInstructionsComplete := by
  intro i s hno
  rcases exec_faultsOrCompletes i s with ⟨c, hc⟩ | ⟨t, he, ht⟩
  · exact absurd hc (hno c)
  · exact ⟨t, he, ht.writes.halted, ht.writes.haltCause⟩

/-- Settles O56: an instruction that can fault has the halt status in its row, and one that completes stays in its
row. -/
theorem instructionsWriteOnlyTheirParts : Obligations.InstructionsWriteOnlyTheirParts := by
  intro i s t h
  rcases exec_next_cases h with ⟨c, hc, rfl⟩ | ht
  · exact SameBut.raise hc.halt_mem_partsOf s c
  · exact ht.writes.same

/-- Settles O57: a fault writes no register, and an instruction that completes writes its destinations. -/
theorem instructionsWriteOnlyTheirRegisters : Obligations.InstructionsWriteOnlyTheirRegisters := by
  intro i s t h
  rcases exec_next_cases h with ⟨c, -, rfl⟩ | ht
  · exact RegsSameBut.of_v_eq rfl
  · exact ht.writes.regs

/-- Settles O58: a fault leaves PC, and an instruction that completes takes a value of its PC column. -/
theorem pcTakesAListedOutcome : Obligations.PcTakesAListedOutcome := by
  intro i s t h
  rcases exec_next_cases h with ⟨c, hc, rfl⟩ | ht
  · exact .inl ⟨c, hc, rfl⟩
  · exact .inr ⟨ht.noFault, ht.pc⟩

/-! ### What no instruction reads -/

/-- The state with other values in the parts no instruction reads: `dirty`, ST, `paused` and the halt status. -/
def State.withOutputs (s : State) (d p h : Bool) (b : Byte) (c : HaltCause) : State :=
  { s with dirty := d, st := b, paused := p, halted := h, haltCause := c }

/-- `exec i` on a state and on the state with other outputs answers next states that differ in the outputs only. -/
def IgnoresOutputs (i : Instr) (s : State) (d p h : Bool) (b : Byte) (c : HaltCause) : Prop :=
  ∃ t u, exec i s = .next t ∧ exec i (s.withOutputs d p h b c) = .next u ∧
    u = t.withOutputs u.dirty p u.halted u.st u.haltCause

section Outputs

variable (s : State) (d p h : Bool) (b : Byte) (c : HaltCause)

theorem State.push?_withOutputs (w : Word) :
    (s.withOutputs d p h b c).push? w = (s.push? w).map (·.withOutputs d p h b c) := by
  by_cases hsp : s.sp.val < 16 <;> simp [State.push?, State.withOutputs, hsp]

theorem State.pop?_withOutputs :
    (s.withOutputs d p h b c).pop? = s.pop?.map fun q => (q.1, q.2.withOutputs d p h b c) := by
  by_cases hsp : s.sp.val = 0 <;> simp [State.pop?, State.withOutputs, hsp]

theorem exec_ignoresOutputs (i : Instr) : IgnoresOutputs i s d p h b c := by
  cases i
  case ret =>
    cases hpop : s.pop? with
    | none =>
      have hsp := State.pop?_none.1 hpop
      exact ⟨_, _, exec_ret_empty hsp, exec_ret_empty hsp, rfl⟩
    | some q =>
      have hpop' := (s.pop?_withOutputs d p h b c).trans (congrArg _ hpop)
      exact ⟨_, _, exec_ret_pop hpop, exec_ret_pop hpop', rfl⟩
  case call =>
    cases hpush : s.push? s.pc with
    | none =>
      have hsp := (State.push?_none s.pc).1 hpush
      exact ⟨_, _, exec_call_full hsp, exec_call_full hsp, rfl⟩
    | some q =>
      have hpush' := (s.push?_withOutputs d p h b c s.pc).trans (congrArg _ hpush)
      exact ⟨_, _, exec_call_push hpush, exec_call_push hpush', rfl⟩
  case drw x y n =>
    cases hr : s.outOfRange n with
    | true => exact ⟨_, _, exec_drw_outside hr, exec_drw_outside hr, rfl⟩
    | false => exact ⟨_, _, exec_drw_inside hr, exec_drw_inside hr, rfl⟩
  case ldB x =>
    cases hr : s.outOfRange 3 with
    | true => exact ⟨_, _, exec_ldB_outside hr, exec_ldB_outside hr, rfl⟩
    | false => exact ⟨_, _, exec_ldB_inside hr, exec_ldB_inside hr, rfl⟩
  case storeRegs x =>
    cases hr : s.outOfRange (x.val + 1) with
    | true => exact ⟨_, _, exec_storeRegs_outside hr, exec_storeRegs_outside hr, rfl⟩
    | false => exact ⟨_, _, exec_storeRegs_inside hr, exec_storeRegs_inside hr, rfl⟩
  case loadRegs x =>
    cases hr : s.outOfRange (x.val + 1) with
    | true => exact ⟨_, _, exec_loadRegs_outside hr, exec_loadRegs_outside hr, rfl⟩
    | false => exact ⟨_, _, exec_loadRegs_inside hr, exec_loadRegs_inside hr, rfl⟩
  case skp x =>
    cases hk : s.keyOf? x with
    | none => exact ⟨_, _, exec_skp_noKey hk, exec_skp_noKey hk, rfl⟩
    | some down => exact ⟨_, _, exec_skp_key hk, exec_skp_key hk, rfl⟩
  case sknp x =>
    cases hk : s.keyOf? x with
    | none => exact ⟨_, _, exec_sknp_noKey hk, exec_sknp_noKey hk, rfl⟩
    | some down => exact ⟨_, _, exec_sknp_key hk, exec_sknp_key hk, rfl⟩
  case ldVxK x =>
    cases hk : s.leastKey? with
    | none => exact ⟨_, _, exec_ldVxK_wait hk, exec_ldVxK_wait hk, rfl⟩
    | some k => exact ⟨_, _, exec_ldVxK_key hk, exec_ldVxK_key hk, rfl⟩
  -- the other 25 instructions do not branch
  all_goals exact ⟨_, _, rfl, rfl, rfl⟩

end Outputs

/-- Settles O59: no check and no operand of an instruction reads an output. -/
theorem programsCannotObserveTheOutputs : Obligations.ProgramsCannotObserveTheOutputs := fun i s d p h b c =>
  exec_ignoresOutputs s d p h b c i

end Sys2Proof.Machine

/-! # The instruction cycle (30_encoding.md section 1, 60_exceptions.md sections 1 and 7) -/

namespace Sys2Proof.Machine

open Sys2Proof

variable {s t : State} {i : Instr} {stepReq : Bool}

/-! ### What an enabled cycle does -/

/-- The state in which the instruction of a `cpu_cycle` runs: the event is taken and the time for `rom_load` closed. -/
def State.inCycle (s : State) : State := { s.dropEvent with romOpen := false }

/-- The word at PC, high byte first (R58). -/
abbrev State.wordAtPc (s : State) : Word := Word.ofBytes (s.readByte s.pc.toNat) (s.readByte (s.pc.toNat + 1))

theorem instructionCycle_fetchRange (hpc : 0x0FFE < s.pc.toNat) : instructionCycle s = .next (s.raise .fetchRange) := by
  rcases instructionCycle_cases (s := s) with ⟨-, h⟩ | ⟨hpc', -⟩
  · exact h
  · omega

theorem instructionCycle_illegal (hpc : s.pc.toNat ≤ 0x0FFE) {e : DecodeError} (hd : decodeWord s.wordAtPc = .error e) :
    instructionCycle s = .next (s.raise .illegalOpcode) := by
  rcases instructionCycle_cases (s := s) with ⟨hpc', -⟩ | ⟨-, ⟨_, -, h⟩ | ⟨i, hd', -⟩⟩
  · omega
  · exact h
  · cases hd.symm.trans hd'

theorem instructionCycle_exec (hpc : s.pc.toNat ≤ 0x0FFE) (hd : decodeWord s.wordAtPc = .ok i) :
    instructionCycle s = exec i s := by
  rcases instructionCycle_cases (s := s) with ⟨hpc', -⟩ | ⟨-, ⟨e, hd', -⟩ | ⟨j, hd', h⟩⟩
  · omega
  · cases hd.symm.trans hd'
  · cases hd.symm.trans hd'
    exact h

/-- Two bytes decode as their word does. -/
theorem decodeWord_of_decode {hi lo : Byte} {rest : List Byte} (h : decode [hi, lo] = .ok (i, rest)) :
    decodeWord (Word.ofBytes hi lo) = .ok i := by
  cases hd : decodeWord (Word.ofBytes hi lo) with
  | error e => simp [decode, hd] at h
  | ok j => simp_all [decode]

/-- Settles O6: an enabled step is an instruction cycle, and the cycle runs what the word at PC decodes to. -/
theorem stepRunsTheDecodedInstruction : Obligations.StepRunsTheDecodedInstruction := by
  intro s stepReq i he hh hp hpc hd
  have hword : decodeWord s.inCycle.wordAtPc = .ok i := decodeWord_of_decode hd
  exact (step_cycle he hh hp).trans (instructionCycle_exec (s := s.inCycle) hpc hword)

/-- Settles O7: the fetch comes first, so memory does not matter. -/
theorem fetchAboveMemoryHalts : Obligations.FetchAboveMemoryHalts := by
  intro s stepReq he hh hp hpc
  exact (step_cycle he hh hp).trans (instructionCycle_fetchRange (s := s.inCycle) hpc)

/-- Settles O8: the decoder rejects a word that selects no row. -/
theorem illegalWordHalts : Obligations.IllegalWordHalts := by
  intro s stepReq he hh hp hpc hw
  have hword : decodeWord s.inCycle.wordAtPc = .error (.illegalOpcode s.inCycle.wordAtPc) := decodeWord_illegal hw
  exact (step_cycle he hh hp).trans (instructionCycle_illegal (s := s.inCycle) hpc hword)

theorem step_of_nextEvent {e : Event} (he : s.nextEvent = e) : step s = handleEvent e s.dropEvent :=
  congrArg (handleEvent · s.dropEvent) he

/-- The gate of R187 is open for a machine that is not halted and is running or single-stepped. -/
theorem State.cycleEnabled_eq_true : s.cycleEnabled stepReq = true ↔
    s.halted = false ∧ (s.paused = false ∨ stepReq = true) := by simp [State.cycleEnabled]

theorem State.cycleEnabled_eq_false : s.cycleEnabled stepReq = false ↔
    s.halted = true ∨ s.paused = true ∧ stepReq = false := by
  simp only [State.cycleEnabled, Bool.and_eq_false_iff, Bool.not_eq_false', Bool.or_eq_false_iff]

/-- Settles O9: the gate of R187 is closed. -/
theorem disabledCycleDoesNothing : Obligations.DisabledCycleDoesNothing := fun s stepReq he h =>
  have hgate : ¬ s.dropEvent.cycleEnabled stepReq = true := by
    rw [Bool.not_eq_true]
    exact State.cycleEnabled_eq_false.2 h
  (step_of_nextEvent he).trans (if_neg hgate)

/-- What a `cpu_cycle` can do: nothing of the block, a halt, or one instruction, fetched at most at 0x0FFE, that
completes. -/
theorem step_cpuCycle_cases (he : s.nextEvent = .cpuCycle stepReq) (h : step s = .next t) :
    t = s.inCycle ∨ (∃ c, c ≠ .none ∧ t = s.inCycle.raise c) ∨ s.pc.toNat ≤ 0x0FFE ∧ ∃ i, Completes i s.inCycle t := by
  cases hgate : s.cycleEnabled stepReq with
  | false =>
    cases (disabledCycleDoesNothing s stepReq he (State.cycleEnabled_eq_false.1 hgate)).symm.trans h
    exact .inl rfl
  | true =>
    obtain ⟨hh, hp⟩ := State.cycleEnabled_eq_true.1 hgate
    rw [step_cycle he hh hp] at h
    refine .inr ?_
    rcases instructionCycle_cases (s := s.inCycle) with ⟨-, hf⟩ | ⟨hpc, ⟨e, -, hill⟩ | ⟨i, -, hi⟩⟩
    · cases hf.symm.trans h
      exact .inl ⟨.fetchRange, by decide, rfl⟩
    · cases hill.symm.trans h
      exact .inl ⟨.illegalOpcode, by decide, rfl⟩
    · rcases exec_next_cases (hi.symm.trans h) with ⟨c, hc, ht⟩ | ht
      · exact .inl ⟨c, hc.ne_none, ht⟩
      · exact .inr ⟨hpc, i, ht⟩

/-- Settles O13: of what a cycle can do, only a halt takes `halted` from 0 to 1. -/
theorem haltingCycleIsPrecise : Obligations.HaltingCycleIsPrecise := by
  intro s t stepReq he hh h ht
  rcases step_cpuCycle_cases he h with rfl | ⟨c, hc, rfl⟩ | ⟨-, i, hi⟩
  · exact absurd (hh.symm.trans ht) Bool.false_ne_true
  · exact ⟨hc, rfl⟩
  · exact absurd (hh.symm.trans (hi.writes.halted.symm.trans ht)) Bool.false_ne_true

/-! ### The placed word -/

theorem State.readyToFetch_pc_le (s : State) : s.readyToFetch.pc.toNat ≤ 0x0FFE := by
  unfold State.readyToFetch
  dsimp only
  split
  · assumption
  · decide

/-- The placed word is the word at PC: a store of two bytes at PC is read back by the fetch. -/
theorem State.wordAtPc_storeBytes (hm : s.mem.wf s.config = true) (hpc : s.pc.toNat ≤ 0x0FFE) (w : Word) :
    (s.storeBytes s.pc.toNat [w.hiByte, w.loByte]).wordAtPc = w := by
  have hlen : s.pc.toNat + [w.hiByte, w.loByte].length ≤ Config.memSize := Nat.add_le_add_right hpc 2
  simp [State.wordAtPc, State.readByte_storeBytes hm hlen]

theorem decodeWord_of_decodeTableWord {n w : Nat} (h : decodeTableWord n w = some i) :
    decodeWord (BitVec.ofNat 16 (w % 2 ^ n)) = .ok i := by
  unfold decodeTableWord at h
  dsimp only at h
  split at h <;> cases h
  next hd => rw [← decodeWord_of_decode hd, Word.ofBytes_hi_lo]

/-- Settles O10: nothing is listed after the placing and cycles come, so the next step is an enabled cycle, and it
fetches the placed word. -/
theorem placedWordIsTheNextInstructionRun : Obligations.PlacedWordIsTheNextInstructionRun := by
  intro s w i hm hd
  obtain ⟨he, hdrop⟩ := State.nextEvent_cycles (s := s.withFetchWord 16 w) rfl rfl
  have hpc : (s.withFetchWord 16 w).pc.toNat ≤ 0x0FFE := s.readyToFetch_pc_le
  have hword : (s.withFetchWord 16 w).wordAtPc = BitVec.ofNat 16 (w % 2 ^ 16) :=
    State.wordAtPc_storeBytes (s := s.readyToFetch) hm hpc _
  rw [step_cycle he rfl (.inl rfl), hdrop]
  refine instructionCycle_exec hpc ?_
  exact (congrArg decodeWord hword).trans (decodeWord_of_decodeTableWord hd)

/-! ### The normal end -/

theorem SameBut.inCycle {parts : List Part} (hrom : Part.romOpen ∈ parts) (hevents : Part.events ∈ parts) (s : State) :
    SameBut parts s s.inCycle :=
  { SameBut.refl s parts with
    romOpen := fun hn => absurd hrom hn
    events := fun hn => absurd hevents hn }

/-- At the normal end an instruction cycle answers the state it began in: the jump goes where PC already is. -/
theorem State.EndedNormally.instructionCycle (h : s.EndedNormally) : instructionCycle s = .next s := by
  obtain ⟨-, nnn, hpc, hf⟩ := h
  obtain ⟨hle, hbytes⟩ := State.fetch?_some hf
  have hd : decode [s.readByte s.pc.toNat, s.readByte (s.pc.toNat + 1)] = .ok (.jp nnn, []) := by
    rw [← hbytes]
    exact decodeOfEncodeIsTheInstruction (.jp nnn) [] rfl
  rw [instructionCycle_exec hle (decodeWord_of_decode hd), exec_jp, hpc]
  rfl

/-- Settles O60: enabled or not, the cycle leaves all but the model's own fields. -/
theorem normalEndIsStable : Obligations.NormalEndIsStable := by
  intro s stepReq h he
  have hin : s.inCycle.EndedNormally := h
  have hstep : step s = .next s.inCycle := by
    cases hgate : s.cycleEnabled stepReq with
    | false => exact disabledCycleDoesNothing s stepReq he (State.cycleEnabled_eq_false.1 hgate)
    | true =>
      obtain ⟨hh, hp⟩ := State.cycleEnabled_eq_true.1 hgate
      exact (step_cycle he hh hp).trans hin.instructionCycle
  exact ⟨s.inCycle, hstep, SameBut.inCycle (by decide) (by decide) s, hin⟩

end Sys2Proof.Machine

/-! # Events, reset and the invariant (10_state.md, 20_memory.md section 5, 60_exceptions.md,
70_reset_and_hazards.md) -/

namespace Sys2Proof.Machine

open Sys2Proof

variable {s t : State} {i : Instr} {parts : List Part}

/-! ### The order of events -/

/-- Settles O5: a listed event, a free event under `State.allow_cases`, or a cycle. -/
theorem eventsComeAsListedThenAsRestSays : Obligations.EventsComeAsListedThenAsRestSays := by
  refine fun s => ⟨fun e es h => State.nextEvent_cons h, fun n h hr => ?_, State.nextEvent_cycles⟩
  obtain ⟨he, hdrop⟩ := State.nextEvent_free h hr
  refine ⟨?_, hdrop⟩
  rw [he]
  exact State.allow_cases _

/-! ### ROM load -/

theorem romLoad_closed (h : s.romOpen = false) (image : List Byte) :
    romLoad image s = .refused .romLoadAfterFirstCycle := by simp [romLoad, h]

theorem romLoad_tooLong (h : s.romOpen = true) {image : List Byte} (hlen : Config.romMax < image.length) :
    romLoad image s = .fault .fatalLoadError := by simp [romLoad, h, hlen]

theorem romLoad_fits (h : s.romOpen = true) {image : List Byte} (hlen : image.length ≤ Config.romMax) :
    romLoad image s = .next (s.storeBytes Config.romBase image) := by simp [romLoad, h, hlen]

/-- A ROM load that answers a next state was legal and its image fits. -/
theorem romLoad_next {image : List Byte} (h : romLoad image s = .next t) :
    s.romOpen = true ∧ image.length ≤ Config.romMax ∧ t = s.storeBytes Config.romBase image := by
  cases hrom : s.romOpen with
  | false => cases (romLoad_closed hrom image).symm.trans h
  | true =>
    by_cases hlen : image.length ≤ Config.romMax
    · cases (romLoad_fits hrom hlen).symm.trans h
      exact ⟨rfl, hlen, rfl⟩
    · cases (romLoad_tooLong hrom (Nat.lt_of_not_le hlen)).symm.trans h

/-- An image that fits ends inside memory. -/
theorem romBase_add_length_le {image : List Byte} (hlen : image.length ≤ Config.romMax) :
    Config.romBase + image.length ≤ Config.memSize := by
  simp only [Config.romMax, Config.romBase, Config.memSize] at *
  omega

/-- Settles O54: the two ways in which a load stops. -/
theorem badRomLoadStops : Obligations.BadRomLoadStops := fun s image he =>
  ⟨fun h hlen => (step_of_nextEvent he).trans (romLoad_tooLong (s := s.dropEvent) h hlen),
    fun h => (step_of_nextEvent he).trans (romLoad_closed (s := s.dropEvent) h image)⟩

/-! ### Frames of the events -/

theorem SameBut.dropEvent (hevents : Part.events ∈ parts) (s : State) : SameBut parts s s.dropEvent :=
  { SameBut.refl s parts with events := fun hn => absurd hevents hn }

theorem SameBut.storeBytes (h : SameBut parts s t) (hmemory : Part.memory ∈ parts) (a : Nat) (bs : List Byte) :
    SameBut parts s (t.storeBytes a bs) :=
  { h with memory := fun hn => absurd hmemory hn }

theorem SameBut.setKeys (h : SameBut parts s t) (hkeys : Part.keys ∈ parts) (key : Vector Bool 16) :
    SameBut parts s { t with key := key } :=
  { h with keys := fun hn => absurd hkeys hn }

theorem SameBut.setPaused (h : SameBut parts s t) (hpaused : Part.paused ∈ parts) (level : Bool) :
    SameBut parts s { t with paused := level } :=
  { h with paused := fun hn => absurd hpaused hn }

theorem SameBut.setDirty (h : SameBut parts s t) (hdirty : Part.dirty ∈ parts) (level : Bool) :
    SameBut parts s { t with dirty := level } :=
  { h with dirty := fun hn => absurd hdirty hn }

theorem SameBut.setEvents (h : SameBut parts s t) (hevents : Part.events ∈ parts) (es : List Event) :
    SameBut parts s { t with events := es } :=
  { h with events := fun hn => absurd hevents hn }

/-- Settles O53: the load stores the image at 0x200, inside memory. -/
theorem romLoadWritesTheImage : Obligations.RomLoadWritesTheImage := by
  intro s image he hrom hlen hm
  have hfit : Config.romBase + image.length ≤ Config.memSize := romBase_add_length_le hlen
  exact ⟨_, (step_of_nextEvent he).trans (romLoad_fits (s := s.dropEvent) hrom hlen),
    State.readByte_storeBytes (s := s.dropEvent) hm hfit,
    (SameBut.dropEvent (by decide) s).storeBytes (by decide) _ _⟩

/-- Settles O52: each event is one update of the state without it. -/
theorem environmentEventsChangeTheirPart : Obligations.EnvironmentEventsChangeTheirPart := by
  refine fun s => ⟨fun k down he => ?_, fun level he => step_of_nextEvent he, fun he => step_of_nextEvent he,
    fun he => step_of_nextEvent he⟩
  refine ⟨_, step_of_nextEvent he, fun j => ?_, (SameBut.refl _ _).setKeys (by decide) _⟩
  simp [Vector.getElem_set, Fin.ext_iff, eq_comm]

/-- Settles O55: the event is put back at the head of the list. -/
theorem nothingHappensAfterShutdown : Obligations.NothingHappensAfterShutdown := fun s he =>
  ⟨_, step_of_nextEvent he, (SameBut.dropEvent (by decide) s).setEvents (by decide) _, rfl⟩

/-- Settles O17: the event builds `State.afterReset`. -/
theorem resetEventRebuildsTheState : Obligations.ResetEventRebuildsTheState := by
  intro s he
  refine ⟨s.dropEvent.afterReset, step_of_nextEvent he, rfl, State.afterReset_readByte, fun x => ?_, rfl, rfl,
    fun k => ?_, rfl, rfl, State.pixel_of_fb_eq_replicate_zero rfl, rfl, rfl, rfl, rfl, rfl, rfl, rfl, rfl, rfl, rfl⟩
  · simp [State.getV, State.afterReset, State.resetOf]
  · simp [State.afterReset, State.resetOf]

/-! ### The timer tick and the beep -/

theorem countDown_toNat (b : Byte) : (countDown b).toNat = b.toNat - 1 := by
  unfold countDown
  split
  · next h => rw [h]; rfl
  · next h =>
    have hpos : 1 ≤ b.toNat := Nat.one_le_iff_ne_zero.2 fun h0 => h (BitVec.eq_of_toNat_eq h0)
    rw [BitVec.toNat_sub_of_le hpos]
    rfl

theorem State.timerTick_idle (h : s.paused = true ∨ s.halted = true) : s.timerTick = s := by
  simp [State.timerTick, h]

theorem State.timerTick_running (hp : s.paused = false) (hh : s.halted = false) :
    s.timerTick = { s with dt := countDown s.dt, st := countDown s.st } := by
  simp [State.timerTick, hp, hh]

theorem SameBut.timerTick (h : SameBut parts s t) (hdelay : Part.delay ∈ parts) (hsound : Part.sound ∈ parts) :
    SameBut parts s t.timerTick := by
  unfold State.timerTick
  split
  · exact h
  · exact { h with delay := fun hn => absurd hdelay hn, sound := fun hn => absurd hsound hn }

/-- Settles O48: idle the tick changes nothing, running it counts both timers down. -/
theorem tickCountsBothTimersDown : Obligations.TickCountsBothTimersDown := by
  refine fun s he => ⟨_, step_of_nextEvent he, (SameBut.dropEvent (by decide) s).timerTick (by decide) (by decide),
    fun h => ?_, fun hp hh => ?_⟩
  · rw [State.timerTick_idle (s := s.dropEvent) h]
    exact ⟨rfl, rfl⟩
  · rw [State.timerTick_running (s := s.dropEvent) hp hh]
    exact ⟨countDown_toNat s.dt, countDown_toNat s.st⟩

theorem State.beep_iff : s.beep = true ↔ s.st ≠ 0 ∧ s.paused = false ∧ s.halted = false := by
  simp [State.beep, and_assoc]

theorem State.beep_of_halted (h : s.halted = true) : s.beep = false := by simp [State.beep, h]

theorem State.beep_of_running (hp : s.paused = false) (hh : s.halted = false) : s.beep = (s.st != 0) := by
  simp [State.beep, hp, hh]

theorem beepStart_iff : beepStart s t = true ↔ s.beep = false ∧ t.beep = true := by simp [beepStart]

theorem beepStop_iff : beepStop s t = true ↔ s.beep = true ∧ t.beep = false := by simp [beepStop]

/-- A count that is down to 0 was 0 or 1. -/
theorem countDown_eq_zero (b : Byte) : countDown b = 0 ↔ b = 0 ∨ b = 1 := by
  simp only [← BitVec.toNat_inj, countDown_toNat, BitVec.ofNat_eq_ofNat, BitVec.toNat_ofNat]
  omega

/-- While running, the beep starts and stops by the values of ST before and after. -/
theorem beep_edges_of_running (hp : s.paused = false) (hh : s.halted = false) (hp' : t.paused = false)
    (hh' : t.halted = false) :
    (beepStart s t = true ↔ s.st = 0 ∧ t.st ≠ 0) ∧ (beepStop s t = true ↔ s.st ≠ 0 ∧ t.st = 0) := by
  simp [beepStart_iff, beepStop_iff, State.beep_of_running hp hh, State.beep_of_running hp' hh']

/-- While running, a count of ST stops the beep from 1 and never starts it. -/
theorem beep_edges_of_countDown (hp : s.paused = false) (hh : s.halted = false) (hp' : t.paused = false)
    (hh' : t.halted = false) (hst : t.st = countDown s.st) :
    (beepStop s t = true ↔ s.st = 1) ∧ beepStart s t = false := by
  obtain ⟨hstart, hstop⟩ := beep_edges_of_running hp hh hp' hh'
  rw [← Bool.not_eq_true, hstart, hstop, hst, ne_eq (countDown _), countDown_eq_zero]
  refine ⟨⟨fun ⟨hne, h⟩ => h.resolve_left hne, fun h => ⟨by rw [h]; decide, .inr h⟩⟩, fun ⟨h0, hn⟩ => hn (.inl h0)⟩

/-- With ST kept and no halt, the beep starts and stops by the pause level before and after. -/
theorem beep_edges_of_paused (hh : s.halted = false) (hh' : t.halted = false) (hst : t.st = s.st) :
    (beepStart s t = true ↔ s.st ≠ 0 ∧ s.paused = true ∧ t.paused = false) ∧
      (beepStop s t = true ↔ s.st ≠ 0 ∧ s.paused = false ∧ t.paused = true) := by
  by_cases h0 : s.st = 0#8
  · simp [beepStart_iff, beepStop_iff, State.beep, hst, h0]
  · simp [beepStart_iff, beepStop_iff, State.beep, hh, hh', hst, h0]

/-- A halt stops the beep if it was on. -/
theorem beep_edges_of_halt (hh : s.halted = false) (ht : t.halted = true) :
    (beepStop s t = true ↔ s.st ≠ 0 ∧ s.paused = false) ∧ beepStart s t = false := by
  have hquiet := State.beep_of_halted ht
  refine ⟨?_, by simp [beepStart, hquiet]⟩
  simp [beepStop_iff, State.beep_iff, hquiet, hh]

theorem exec_ldSTVx (x : Reg) (s : State) : exec (.ldSTVx x) s = .next { s with st := s.getV x }.advance := rfl

/-- Settles O49: each event leaves ST, the pause level or the halt status as one of the edge lemmas asks. -/
theorem beepFollowsTheSoundTimer : Obligations.BeepFollowsTheSoundTimer := by
  refine ⟨fun s => State.beep_iff, fun x s hp hh => ?_, fun s he hp hh => ?_, fun s level he hh => ?_,
    fun s t _ _ hh _ ht => beep_edges_of_halt hh ht⟩
  · exact ⟨_, exec_ldSTVx x s, beep_edges_of_running hp hh hp hh⟩
  · have htick : step s = .next { s.dropEvent with dt := countDown s.dt, st := countDown s.st } :=
      (step_of_nextEvent he).trans (congrArg _ (State.timerTick_running (s := s.dropEvent) hp hh))
    exact ⟨_, htick, beep_edges_of_countDown hp hh hp hh rfl⟩
  · exact ⟨_, step_of_nextEvent he, beep_edges_of_paused hh hh rfl⟩

/-! ### The halted machine -/

/-- Settles O14: the gate of R187 is closed, the timers stand, and the invariant has closed the ROM window; the other
events change inputs, `dirty` or the model's own fields. -/
theorem haltedMachineIsFrozen : Obligations.HaltedMachineIsFrozen := by
  intro s hinv hh hreset
  have hdrop : SameBut [.dirty, .keys, .paused, .romOpen, .events] s s.dropEvent := SameBut.dropEvent (by decide) s
  have hquiet : ∀ t : State, t.halted = s.halted → t.beep = false := fun t ht => State.beep_of_halted (ht.trans hh)
  cases he : s.nextEvent with
  | romLoad image =>
    exact .inl ⟨image, rfl, (badRomLoadStops s image he).2 (hinv.romClosed hh)⟩
  | reset => exact absurd he hreset
  | cpuCycle stepReq =>
    exact .inr ⟨s.inCycle, disabledCycleDoesNothing s stepReq he (.inl hh), SameBut.inCycle (by decide) (by decide) s,
      hquiet _ rfl⟩
  | timerTick =>
    have hidle : step s = .next s.dropEvent :=
      (step_of_nextEvent he).trans (congrArg _ (State.timerTick_idle (s := s.dropEvent) (.inr hh)))
    exact .inr ⟨_, hidle, hdrop, hquiet _ rfl⟩
  | setKey k down => exact .inr ⟨_, step_of_nextEvent he, hdrop.setKeys (by decide) _, hquiet _ rfl⟩
  | setPaused level => exact .inr ⟨_, step_of_nextEvent he, hdrop.setPaused (by decide) _, hquiet _ rfl⟩
  | renderAck => exact .inr ⟨_, step_of_nextEvent he, hdrop.setDirty (by decide) _, hquiet _ rfl⟩
  | redraw => exact .inr ⟨_, step_of_nextEvent he, hdrop, hquiet _ rfl⟩
  | shutdown => exact .inr ⟨_, step_of_nextEvent he, hdrop.setEvents (by decide) _, hquiet _ rfl⟩

/-! ### The invariant -/

/-- The reset state of every configuration meets the invariant, whatever the inputs and the events. -/
theorem State.resetOf_inv (cfg : Config) : (State.resetOf cfg).Inv where
  memory := rfl
  halt := by simp [State.resetOf]
  returns k hk := absurd hk (Nat.not_lt_zero _)
  romClosed hh := absurd hh Bool.false_ne_true

/-- Settles O15: the case of the default configuration. -/
theorem resetMeetsTheInvariant : Obligations.ResetMeetsTheInvariant := State.resetOf_inv _

theorem State.Inv.dropEvent (h : s.Inv) : s.dropEvent.Inv := { h with }

theorem State.Inv.inCycle (h : s.Inv) : s.inCycle.Inv :=
  { h.dropEvent with romClosed := fun _ => rfl }

theorem State.Inv.raise (h : s.Inv) (hrom : s.romOpen = false) {c : HaltCause} (hc : c ≠ .none) : (s.raise c).Inv :=
  { h with
    halt := ⟨fun _ => hc, fun _ => rfl⟩
    romClosed := fun _ => hrom }

theorem State.Inv.timerTick (h : s.Inv) : s.timerTick.Inv := by
  unfold State.timerTick
  split
  · exact h
  · exact { h with }

theorem State.Inv.storeBytes (h : s.Inv) {a : Nat} {bs : List Byte} (ha : a + bs.length ≤ Config.memSize) :
    (s.storeBytes a bs).Inv :=
  { h with memory := State.wf_storeBytes h.memory ha }

/-- An instruction that completes keeps the invariant, when it was fetched: the address a call pushes is its own. -/
theorem Completes.inv (h : Completes i s t) (hs : s.Inv) (hpc : s.pc.toNat ≤ 0x0FFE) : t.Inv where
  memory := h.writes.memory hs.memory
  halt := by rw [h.writes.halted, h.writes.haltCause]; exact hs.halt
  returns k hk := by
    rcases h.writes.returns k hk with hw | ⟨hk', hw⟩
    · exact hw ▸ hpc
    · exact hw ▸ hs.returns k hk'
  romClosed hh := by
    have hrom : Part.romOpen ∉ partsOf i := by cases i <;> simp [partsOf]
    rw [h.writes.same.romOpen hrom]
    exact hs.romClosed (h.writes.halted ▸ hh)

/-- Settles O16: a cycle by what it can do, the other events by what they update. -/
theorem stepKeepsTheInvariant : Obligations.StepKeepsTheInvariant := by
  intro s t hs h
  have hd := hs.dropEvent
  cases he : s.nextEvent with
  | cpuCycle stepReq =>
    rcases step_cpuCycle_cases he h with rfl | ⟨c, hc, rfl⟩ | ⟨hpc, i, hi⟩
    · exact hs.inCycle
    · exact hs.inCycle.raise rfl hc
    · exact hi.inv hs.inCycle hpc
  | romLoad image =>
    obtain ⟨-, hlen, rfl⟩ := romLoad_next ((step_of_nextEvent he).symm.trans h)
    exact hd.storeBytes (romBase_add_length_le hlen)
  | timerTick =>
    cases (step_of_nextEvent he).symm.trans h
    exact hd.timerTick
  | reset =>
    cases (step_of_nextEvent he).symm.trans h
    exact { State.resetOf_inv s.config with }
  | setKey | setPaused | renderAck | redraw | shutdown =>
    cases (step_of_nextEvent he).symm.trans h
    exact { hd with }

/-- Settles O18: no update of an event touches the configuration, and no part of an instruction's row holds it. -/
theorem configurationIsFixed : Obligations.ConfigurationIsFixed := by
  intro s t h
  cases he : s.nextEvent with
  | cpuCycle stepReq =>
    rcases step_cpuCycle_cases he h with rfl | ⟨c, -, rfl⟩ | ⟨-, i, hi⟩
    · rfl
    · rfl
    · exact hi.writes.same.config
  | romLoad image =>
    obtain ⟨-, -, rfl⟩ := romLoad_next ((step_of_nextEvent he).symm.trans h)
    rfl
  | timerTick =>
    cases (step_of_nextEvent he).symm.trans h
    exact ((SameBut.refl s.dropEvent [.delay, .sound]).timerTick (by decide) (by decide)).config
  | reset | setKey | setPaused | renderAck | redraw | shutdown =>
    cases (step_of_nextEvent he).symm.trans h
    rfl

end Sys2Proof.Machine

/-! # Control transfer (40_flow.md): call and return -/

namespace Sys2Proof.Machine

open Sys2Proof

variable {s t : State}

/-- Settles O21: the push writes the call's own address. -/
theorem callPushesItsOwnAddress : Obligations.CallPushesItsOwnAddress := by
  intro nnn s hsp
  cases hpush : s.push? s.pc with
  | none => exact absurd ((State.push?_none s.pc).1 hpush) hsp
  | some t =>
    obtain ⟨-, hsp', hstack, -⟩ := State.push?_some hpush
    have hframe : SameBut [.stack, .pc] s t := (Writes.push (xs := []) (by decide) hpush).same
    exact ⟨_, exec_call_push hpush, zextAddr_toNat nnn, hsp', hstack, hframe.jumpTo (by decide) _⟩

/-- Settles O22: the pop gives the last entry in use and keeps its content. -/
theorem returnPopsAndAddsTwo : Obligations.ReturnPopsAndAddsTwo := by
  intro s k hk
  cases hpop : s.pop? with
  | none => exact absurd (State.pop?_none.1 hpop) (by omega)
  | some q =>
    obtain ⟨w, t⟩ := q
    obtain ⟨j, hj, hw, hsp, ht⟩ := State.pop?_some hpop
    obtain rfl : j = k := Fin.ext (by omega)
    have hstack : t.stack = s.stack := by rw [ht]
    have hframe : SameBut [.stack, .pc] s t := (Writes.pop (xs := []) (by decide) hpop).same
    exact ⟨_, exec_ret_pop hpop, congrArg (· + 2) hw, hsp, hstack, hframe.jumpTo (by decide) _⟩

/-- Settles O23: the return pops the entry that the call pushed. -/
theorem returnAfterCallResumesAfterIt : Obligations.ReturnAfterCallResumesAfterIt := by
  intro nnn s hsp
  obtain ⟨t, hcall, -, htsp, htstack, htframe⟩ := callPushesItsOwnAddress nnn s hsp
  have hlt : s.sp.val < 16 := by omega
  obtain ⟨u, hret, hupc, husp, hustack, huframe⟩ := returnPopsAndAddsTwo t ⟨s.sp.val, hlt⟩ htsp
  refine ⟨t, u, hcall, hret, ?_, Fin.ext husp, fun k hk => ?_, htframe.trans huframe⟩
  · rw [hupc, htstack, if_pos rfl]
  · rw [hustack, htstack, if_neg (Nat.ne_of_lt hk)]

end Sys2Proof.Machine

/-! # Arithmetic, logic and shift with a flag (41_alu.md sections 4 to 9) -/

namespace Sys2Proof.Machine

open Sys2Proof

variable {s t : State} {i : Instr} {x : Reg} {b : Byte} {c : Bool}

/-! ### A register and the flag -/

theorem State.getV_VF_setFlag (s : State) (c : Bool) : (s.setFlag c).getV VF = flagByte c := State.getV_setV_same s VF _

/-- What an instruction changes that writes `Vx` and VF, in whatever order, and then advances. -/
theorem frame_of_writes (h : Writes [.regs, .pc] [x, VF] s t) :
    RegsSameBut [x, VF] s t.advance ∧ SameBut [.regs, .pc] s t.advance :=
  have hadvance := h.advance (by decide)
  ⟨hadvance.regs, hadvance.same⟩

/-- An instruction whose whole meaning is `V[x] <- b; VF <- c; PC <- PC + 2`. -/
theorem writesRegThenFlag_of_exec (hexec : exec i s = .next ((s.setV x b).setFlag c).advance) :
    ∃ t, exec i s = .next t ∧ (x ≠ VF → t.getV x = b) ∧ t.getV VF = flagByte c ∧ t.pc = s.pc + 2 ∧
      RegsSameBut [x, VF] s t ∧ SameBut [.regs, .pc] s t := by
  have hwrites : Writes [.regs, .pc] [x, VF] s ((s.setV x b).setFlag c) :=
    ((Writes.refl _ _ s).setV (by decide) List.mem_cons_self b).setFlag (by decide) (VF_mem_pair x) c
  have hx : x ≠ VF → ((s.setV x b).setFlag c).getV x = b := fun hne => by
    rw [State.getV_setFlag, if_neg hne, State.getV_setV_same]
  exact ⟨_, hexec, hx, State.getV_VF_setFlag _ c, rfl, frame_of_writes hwrites⟩

/-- An instruction whose whole meaning is `VF <- c; V[x] <- b; PC <- PC + 2`. -/
theorem writesFlagThenReg_of_exec (hexec : exec i s = .next ((s.setFlag c).setV x b).advance) :
    ∃ t, exec i s = .next t ∧ (x ≠ VF → t.getV VF = flagByte c) ∧ t.getV x = b ∧ t.pc = s.pc + 2 ∧
      RegsSameBut [x, VF] s t ∧ SameBut [.regs, .pc] s t := by
  have hwrites : Writes [.regs, .pc] [x, VF] s ((s.setFlag c).setV x b) :=
    ((Writes.refl _ _ s).setFlag (by decide) (VF_mem_pair x) c).setV (by decide) List.mem_cons_self b
  have hVF : x ≠ VF → ((s.setFlag c).setV x b).getV VF = flagByte c := fun hne => by
    rw [State.getV_setV_ne _ hne.symm, State.getV_VF_setFlag]
  exact ⟨_, hexec, hVF, State.getV_setV_same _ x b, rfl, frame_of_writes hwrites⟩

/-! ### Bytes as integers -/

theorem Byte.toNat_sub_int (a b : Byte) : ((a - b).toNat : Int) = ((a.toNat : Int) - (b.toNat : Int)) % 256 := by
  rw [BitVec.toNat_sub]
  omega

theorem flagByte_toNat (c : Bool) : (flagByte c).toNat = c.toNat := by cases c <;> rfl

theorem flagByte_decide (p : Prop) [Decidable p] : flagByte (decide p) = if p then 1 else 0 := by
  by_cases h : p <;> simp [flagByte, h]

theorem lowBit_toNat (a : Byte) : (flagByte (lowBit a)).toNat = a.toNat % 2 := by
  rw [flagByte_toNat, lowBit, BitVec.getLsbD, Nat.toNat_testBit, pow_zero, Nat.div_one]

theorem highBit_toNat (a : Byte) : (flagByte (highBit a)).toNat = a.toNat / 128 := by
  have hlt : a.toNat < 256 := a.isLt
  rw [flagByte_toNat, highBit, BitVec.getLsbD, Nat.toNat_testBit]
  omega

theorem Byte.toNat_shr_one (a : Byte) : (a >>> 1).toNat = a.toNat / 2 := by
  rw [BitVec.toNat_ushiftRight, Nat.shiftRight_eq_div_pow, pow_one]

theorem Byte.toNat_shl_one (a : Byte) : (a <<< 1).toNat = a.toNat * 2 % 256 := by
  rw [BitVec.toNat_shiftLeft, Nat.shiftLeft_eq, pow_one]

/-! ### The statements -/

/-- Settles O28: the three meanings write the result and then the flag 0. -/
theorem logicResetsTheFlag : Obligations.LogicResetsTheFlag := fun x y s =>
  ⟨writesRegThenFlag_of_exec (s := s) (c := false) (i := .orReg x y) rfl,
    writesRegThenFlag_of_exec (c := false) (i := .andReg x y) rfl,
    writesRegThenFlag_of_exec (c := false) (i := .xorReg x y) rfl⟩

/-- Settles O29: the 8-bit sum is the sum modulo 256, and the flag is decided on the entry operands. -/
theorem addWritesSumThenCarry : Obligations.AddWritesSumThenCarry := by
  intro x y s
  obtain ⟨t, hexec, hx, hVF, hframe⟩ := writesRegThenFlag_of_exec (s := s) (i := .addReg x y) rfl
  exact ⟨t, hexec, fun hne => by rw [hx hne, BitVec.toNat_add], hVF.trans (flagByte_decide _), hframe⟩

/-- Settles O30: the flag is written first, so it is what an operand that is VF holds. -/
theorem subtractionsWriteFlagThenDifference : Obligations.SubtractionsWriteFlagThenDifference := by
  intro x y s
  obtain ⟨t, ht, htVF, htx, htframe⟩ := writesFlagThenReg_of_exec (s := s) (i := .subReg x y) rfl
  obtain ⟨u, hu, huVF, hux, huframe⟩ := writesFlagThenReg_of_exec (s := s) (i := .subnReg x y) rfl
  refine ⟨⟨t, _, ht, flagByte_decide _, htVF, ?_, htframe⟩, u, _, hu, flagByte_decide _, huVF, ?_, huframe⟩
  · rw [htx, Byte.toNat_sub_int, State.getV_setFlag, State.getV_setFlag]
    rfl
  · rw [hux, Byte.toNat_sub_int, State.getV_setFlag, State.getV_setFlag]
    rfl

/-- Settles O31: the flag is written first, so with x = F it is what is shifted. -/
theorem shiftsWriteFlagThenResult : Obligations.ShiftsWriteFlagThenResult := by
  intro x y s
  obtain ⟨t, ht, htVF, htx, htframe⟩ := writesFlagThenReg_of_exec (s := s) (i := .shr x y) rfl
  obtain ⟨u, hu, huVF, hux, huframe⟩ := writesFlagThenReg_of_exec (s := s) (i := .shl x y) rfl
  refine ⟨⟨t, ht, fun hne => by rw [htVF hne, lowBit_toNat], ?_, htframe⟩,
    u, hu, fun hne => by rw [huVF hne, highBit_toNat], ?_, huframe⟩
  · rw [htx, Byte.toNat_shr_one, State.getV_setFlag]
    split
    · rw [lowBit_toNat]
      omega
    · rfl
  · rw [hux, Byte.toNat_shl_one, State.getV_setFlag]
    split
    · have hlt : (s.getV x).toNat < 256 := (s.getV x).isLt
      rw [highBit_toNat]
      omega
    · rfl

end Sys2Proof.Machine

/-! # Index register and memory transfer (42_index_memory.md sections 2 to 6) -/

namespace Sys2Proof.Machine

open Sys2Proof

variable {s t : State} {x : Reg}

/-! ### Fx1E and Fx29 -/

theorem exec_addI (x : Reg) (s : State) : exec (.addI x) s =
    .next ((s.setI (s.i + zextByte (s.getV x))).setFlag (aboveMemory (s.i + zextByte (s.getV x)))).advance := rfl

theorem exec_ldF (x : Reg) (s : State) : exec (.ldF x) s = .next (s.setI (5 * zextByte (s.getV x))).advance := rfl

/-- Settles O33: the flag is of the sum that I holds. -/
theorem addToIndexWrapsAndFlags : Obligations.AddToIndexWrapsAndFlags := by
  intro x s
  have hwrites : Writes [.regs, .index, .pc] [VF] s
      ((s.setI (s.i + zextByte (s.getV x))).setFlag (aboveMemory (s.i + zextByte (s.getV x)))).advance :=
    (((Writes.refl _ _ s).setI (by decide) _).setFlag (by decide) (by decide) _).advance (by decide)
  have hsum : (s.i + zextByte (s.getV x)).toNat = (s.i.toNat + (s.getV x).toNat) % 65536 := by
    rw [BitVec.toNat_add, zextByte_toNat]
  have hflag := State.getV_VF_setFlag (s.setI (s.i + zextByte (s.getV x))) (aboveMemory (s.i + zextByte (s.getV x)))
  exact ⟨_, exec_addI x s, hsum, hflag.trans (flagByte_decide _), rfl, hwrites.regs, hwrites.same⟩

/-- Settles O34: 5 times 255 is below 2^16. -/
theorem glyphAddressIsFiveTimesVx : Obligations.GlyphAddressIsFiveTimesVx := by
  intro x s
  obtain ⟨t, hexec, hi, hframe⟩ := writesIndex_of_exec (exec_ldF x s)
  refine ⟨t, hexec, ?_, hframe⟩
  have hlt : (s.getV x).toNat < 256 := (s.getV x).isLt
  have hmul : (5 * zextByte (s.getV x)).toNat = 5 * (zextByte (s.getV x)).toNat % 2 ^ 16 := BitVec.toNat_mul _ _
  rw [hi, hmul, zextByte_toNat]
  omega

/-! ### Transfers inside memory -/

/-- `x + 1` bytes from I are in memory when the last of them is. -/
theorem State.outOfRange_succ_eq_false {k : Nat} (h : s.base + k ≤ 0xFFF) : s.outOfRange (k + 1) = false :=
  State.outOfRange_false.2 (.inr (by simp only [Config.memSize]; omega))

/-- Inside memory the advance of I, and of PC after it, does not wrap I. -/
theorem State.advanceI_advance_toNat (hi : t.i = s.i) (h : s.base + x.val ≤ 0xFFF) :
    (t.advanceI x).advance.i.toNat = s.i.toNat + x.val + 1 := by
  have hbase : s.i.toNat + x.val ≤ 0xFFF := h
  rw [State.advance_i, State.advanceI_i, hi, BitVec.toNat_add, BitVec.toNat_ofNat]
  omega

theorem bcd_toNat (b : Byte) (k : Nat) : ((bcd b).getD k 0).toNat =
    ([b.toNat / 100, b.toNat / 10 % 10, b.toNat % 10] : List Nat).getD k 0 := by
  match k with
  | 0 | 1 | 2 | _ + 3 => simp [bcd]

/-- Settles O35: a store of the three digits at I. -/
theorem decimalDigitsAreStored : Obligations.DecimalDigitsAreStored := by
  intro x s hm hbase
  have hlen : s.base + (bcd (s.getV x)).length ≤ Config.memSize := Nat.add_le_add_right hbase 1
  have hframe : SameBut [.memory, .pc] s (s.storeBytes s.base (bcd (s.getV x))).advance :=
    ((Writes.refl _ [] s).storeBytes (by decide) hlen).advance (by decide) |>.same
  have hread := State.readByte_storeBytes hm hlen
  have hdigit : ∀ k, k < 3 →
      (s.storeBytes s.base (bcd (s.getV x))).readByte (s.base + k) = (bcd (s.getV x)).getD k 0 := by
    intro k hk
    rw [hread, if_pos ⟨Nat.le_add_right _ _, Nat.add_lt_add_left hk _⟩, Nat.add_sub_cancel_left]
  refine ⟨_, exec_ldB_inside (State.outOfRange_succ_eq_false hbase), ?_, ?_, ?_, fun a ha => ?_, rfl, hframe⟩
  · exact (congrArg _ (hdigit 0 (by decide))).trans (bcd_toNat _ 0)
  · exact (congrArg _ (hdigit 1 (by decide))).trans (bcd_toNat _ 1)
  · exact (congrArg _ (hdigit 2 (by decide))).trans (bcd_toNat _ 2)
  · exact (hread a).trans (if_neg fun h => by
      have h3 : a < s.base + 3 := h.2
      omega)

/-- Settles O36: a store of V0 to Vx at I. -/
theorem storeWritesV0ToVx : Obligations.StoreWritesV0ToVx := by
  intro x s hm hbase
  have hrange := State.outOfRange_succ_eq_false hbase
  have hlen : s.base + (s.regsUpTo x).length ≤ Config.memSize := by
    rw [State.length_regsUpTo]
    exact Nat.add_le_add_right hbase 1
  have hframe : SameBut [.memory, .index, .pc] s ((s.storeBytes s.base (s.regsUpTo x)).advanceI x).advance :=
    (((Writes.refl _ [] s).storeBytes (by decide) hlen).setI (by decide) _).advance (by decide) |>.same
  have hread := State.readByte_storeBytes hm hlen
  rw [State.length_regsUpTo, rangeLen] at hread
  refine ⟨_, exec_storeRegs_inside hrange, fun j hj => ?_, fun a ha => ?_,
    State.advanceI_advance_toNat (State.storeBytes_i s _ _) hbase, rfl, hframe⟩
  · have hle : j.val ≤ x.val := hj
    refine (hread _).trans ?_
    rw [if_pos (by omega), Nat.add_sub_cancel_left, State.getD_regsUpTo hj]
  · exact (hread a).trans (if_neg (by omega))

/-- Settles O37: the bytes from I fill V0 to Vx. -/
theorem loadReadsV0ToVx : Obligations.LoadReadsV0ToVx := by
  intro x s hbase
  have hrange := State.outOfRange_succ_eq_false hbase
  have hframe : SameBut [.regs, .index, .pc] s
      ((s.setRegsUpTo x (s.readBytes s.base (x.val + 1))).advanceI x).advance :=
    (((Writes.refl _ _ s).setRegsUpTo (by decide) (fun j _ => List.mem_finRange j) _).setI (by decide) _).advance
      (by decide) |>.same
  have hpc : ((s.setRegsUpTo x (s.readBytes s.base (x.val + 1))).advanceI x).advance.pc = s.pc + 2 := by
    rw [State.advance_pc, State.advanceI_pc, State.setRegsUpTo_pc]
  refine ⟨_, exec_loadRegs_inside hrange, fun j hj => ?_, fun j hj => ?_,
    State.advanceI_advance_toNat (State.setRegsUpTo_i s _ _) hbase, hpc, hframe⟩
  · have hlt : j.val < x.val + 1 := Nat.lt_succ_of_le hj
    have hbyte := Memory.getElem?_readBytes (cfg := s.config) s.mem (x.val + 1) s.base j.val hlt
    rw [State.advance_getV, State.advanceI_getV, State.getV_setRegsUpTo, if_pos hj, List.getD, State.readBytes, hbyte]
    rfl
  · rw [State.advance_getV, State.advanceI_getV, State.getV_setRegsUpTo, if_neg (not_le_of_gt hj)]

/-! ### A load and a fetch after a store -/

/-- Settles O38: the load reads the bytes that the store wrote. -/
theorem loadAfterStoreRestoresRegisters : Obligations.LoadAfterStoreRestoresRegisters := by
  rintro x s u hm hbase hi ⟨t, hstore, hread⟩
  obtain ⟨t', hstore', hstored, -⟩ := storeWritesV0ToVx x s hm hbase
  cases hstore.symm.trans hstore'
  have hbase' : u.base = s.base := congrArg BitVec.toNat hi
  obtain ⟨v, hload, hloaded, -⟩ := loadReadsV0ToVx x u (hbase' ▸ hbase)
  refine ⟨v, hload, fun j hj => ?_⟩
  rw [hloaded j hj, hbase', hread, hstored j hj]

theorem State.fetch?_of_le (h : s.pc.toNat ≤ 0x0FFE) :
    s.fetch? = some [s.readByte s.pc.toNat, s.readByte (s.pc.toNat + 1)] := if_pos h

/-- Settles O39: the next PC is the address of the first byte stored. -/
theorem storedWordIsTheNextFetched : Obligations.StoredWordIsTheNextFetched := by
  intro x j k s hm hbase hjk hkx hpc
  obtain ⟨t, hstore, hstored, -, -, htpc, -⟩ := storeWritesV0ToVx x s hm hbase
  have hle : k.val ≤ x.val := hkx
  have hnext : t.pc.toNat = s.base + j.val := by
    rw [htpc, BitVec.toNat_add_of_lt, ← hpc]
    · rfl
    · exact hpc ▸ (by omega : s.base + j.val < 2 ^ 16)
  have hj : j ≤ x := Fin.le_def.2 (by omega)
  refine ⟨t, hstore, ?_⟩
  rw [State.fetch?_of_le (by omega), hnext, hstored j hj, show s.base + j.val + 1 = s.base + k.val by omega,
    hstored k hkx]

end Sys2Proof.Machine

/-! # Keypad, timer instructions and the byte source (44_keypad.md, 45_timer.md, 46_random.md section 2) -/

namespace Sys2Proof.Machine

open Sys2Proof

variable {s t : State}

/-! ### Keypad -/

/-- Settles O44: a key number has a key, and the skip is on its level. -/
theorem keySkipsTestTheKey : Obligations.KeySkipsTestTheKey := by
  intro x k s hk
  have hkey := State.keyOf?_some hk
  exact ⟨skips_iff_of_exec (exec_skp_key hkey) Iff.rfl,
    skips_iff_of_exec (exec_sknp_key hkey) (Bool.not_eq_true' _).to_iff⟩

/-- The key that is down with every lower key up is the one reported. -/
theorem State.leastKey?_eq_some {k : Reg} (hk : s.key[k] = true) (hlt : ∀ j : Reg, j < k → s.key[j] = false) :
    s.leastKey? = some k := by
  cases h : s.leastKey? with
  | none => exact absurd hk (by simp [State.leastKey?_none.1 h k])
  | some m =>
    obtain ⟨hm, hlt'⟩ := State.leastKey?_some h
    have hle : ¬ m < k := fun hmk => by simp [hlt m hmk] at hm
    have hge : ¬ k < m := fun hkm => by simp [hlt' k hkm] at hk
    rw [le_antisymm (not_lt.1 hge) (not_lt.1 hle)]

/-- Settles O45: the meaning writes the number of the least key, which a byte holds. -/
theorem keyWaitReportsTheLeastKey : Obligations.KeyWaitReportsTheLeastKey := by
  intro x k s hk hlt
  obtain ⟨t, hexec, hx, hframe⟩ := writesReg_of_exec (exec_ldVxK_key (x := x) (State.leastKey?_eq_some hk hlt))
  have hbyte : k.val < 2 ^ 8 := by omega
  exact ⟨t, hexec, by rw [hx, BitVec.toNat_ofNat, Nat.mod_eq_of_lt hbyte], hframe⟩

/-- Settles O46: no key is reported. -/
theorem keyWaitPollsWithoutEffect : Obligations.KeyWaitPollsWithoutEffect := fun _ _ h =>
  exec_ldVxK_wait (State.leastKey?_none.2 h)

/-! ### Timers -/

theorem exec_ldVxDT (x : Reg) (s : State) : exec (.ldVxDT x) s = .next (s.setV x s.dt).advance := rfl

theorem exec_ldDTVx (x : Reg) (s : State) : exec (.ldDTVx x) s = .next { s with dt := s.getV x }.advance := rfl

/-- Settles O47: one register write, one write of DT and one of ST. -/
theorem timerInstructionsMoveTheirTimer : Obligations.TimerInstructionsMoveTheirTimer := fun x s =>
  have hdelay : Writes [.delay, .pc] [] s { s with dt := s.getV x } := (Writes.refl _ _ s).setDelay (by decide) _
  have hsound : Writes [.sound, .pc] [] s { s with st := s.getV x } := (Writes.refl _ _ s).setSound (by decide) _
  ⟨writesReg_of_exec (exec_ldVxDT x s),
    ⟨_, exec_ldDTVx x s, rfl, rfl, (hdelay.advance (by decide)).same⟩,
    ⟨_, exec_ldSTVx x s, rfl, rfl, (hsound.advance (by decide)).same⟩⟩

/-! ### Random -/

/-- Settles O51: row `k` of the source's table is place `k` of the list with the next place. -/
theorem byteSourceIsConsumedInOrder : Obligations.ByteSourceIsConsumedInOrder := by
  intro x kk bytes k b s htable hrng hb
  obtain ⟨t, hexec, hx, ht, -⟩ := randomIsTheDrawnByteUnderMask x kk s
  have hrow : s.config.rngTable[s.rng]? = some (k + 1, b) := by
    rw [htable, hrng, Config.byteSource_getElem?, hb]
    rfl
  rw [Config.rngNext_supplied hrow] at hx ht
  exact ⟨t, hexec, hx, ht⟩

end Sys2Proof.Machine

/-! # Display (43_display.md sections 2 and 3): the draw, and the same draw again -/

namespace Sys2Proof.Machine

open Sys2Proof

variable {s t u : State} {x y : Reg} {n : Nat}

/-- The range of the statements is the range check of the draw. -/
theorem State.outOfRange_eq_false_of_le (h : n = 0 ∨ s.base + n - 1 ≤ 0xFFF) : s.outOfRange n = false :=
  State.outOfRange_false.2 (h.imp_right fun hle => by simp only [Config.memSize]; omega)

/-- Some pixel of the frame that the sprite covers is set. -/
def State.collides (s : State) (x y : Reg) (n : Nat) : Prop :=
  ∃ r c, s.pixel r c = true ∧ s.spriteCovers x y n r c = true

/-- What Dxyn does with its sprite in memory: it toggles the covered pixels, writes to VF whether a covered pixel was
set, and leaves the rest. -/
structure Draws (x y : Reg) (n : Nat) (s t : State) : Prop where
  pixel : ∀ r c, t.pixel r c = (s.pixel r c ^^ s.spriteCovers x y n r c)
  flag : ∃ f, t.getV VF = flagByte f ∧ (f = true ↔ s.collides x y n)
  dirty : t.dirty = true
  pc : t.pc = s.pc + 2
  writes : Writes [.regs, .frame, .dirty, .pc] [VF] s t

theorem exec_drw_draws (x y : Reg) (h : n = 0 ∨ s.base + n - 1 ≤ 0xFFF) :
    ∃ t, exec (.drw x y n) s = .next t ∧ Draws x y n s t := by
  refine ⟨_, exec_drw_inside (State.outOfRange_eq_false_of_le h), fun r c => ?_, ⟨_, State.getV_VF_setFlag _ _, ?_⟩,
    rfl, rfl, ?_⟩
  · exact (drawSprite_pixel _ _ _ _ r c).trans (by rw [spritePixel_readBytes]; rfl)
  · rw [drawSprite_collision]
    simp only [spritePixel_readBytes]
    rfl
  · exact (((Writes.refl _ _ s).setFrame (by decide) (by decide) _).setFlag (by decide) (by decide) _).advance
      (by decide)

/-- A covered pixel that was set is a pixel that goes from set to unset. -/
theorem Draws.collides_iff (h : Draws x y n s t) :
    s.collides x y n ↔ ∃ r c, s.pixel r c = true ∧ t.pixel r c = false := by
  refine exists_congr fun r => exists_congr fun c => and_congr_right fun hs => ?_
  simp [h.pixel, hs]

/-- Settles O41: VF tells whether a covered pixel was set, and the draw turns just those off. -/
theorem drawTogglesTheSpritePixels : Obligations.DrawTogglesTheSpritePixels := by
  intro x y n s h
  obtain ⟨t, hexec, ht⟩ := exec_drw_draws x y h
  obtain ⟨f, hVF, hf⟩ := ht.flag
  refine ⟨t, hexec, ht.pixel, ?_, ht.dirty, ht.pc, ht.writes.regs, ht.writes.same⟩
  rw [← ht.collides_iff, ← hf, hVF]
  cases f <;> simp [flagByte]

theorem Draws.flag_iff (h : Draws x y n s t) : t.getV VF = 1 ↔ s.collides x y n := by
  obtain ⟨f, hVF, hf⟩ := h.flag
  rw [← hf, hVF]
  cases f <;> simp [flagByte]

/-- After a draw the same sprite covers the same pixels, when the coordinates are still the same: the draw writes no
memory and not I. -/
theorem Draws.spriteCovers_eq (h : Draws x y n s t) (hx : (t.getV x).toNat % 64 = (s.getV x).toNat % 64)
    (hy : (t.getV y).toNat % 32 = (s.getV y).toNat % 32) (r : Fin 32) (c : Fin 64) :
    t.spriteCovers x y n r c = s.spriteCovers x y n r c := by
  have hi : t.i = s.i := h.writes.same.index (by decide)
  have hread := h.writes.same.memory (by decide)
  simp only [State.spriteCovers, hx, hy, hi, hread]

/-- Settles O42: toggling the same pixels twice restores them, and a pixel that the second draw turns off is one that
the first turned on. -/
theorem drawingTwiceRestoresTheDisplay : Obligations.DrawingTwiceRestoresTheDisplay := by
  intro x y n s h
  obtain ⟨t, hexec, ht⟩ := exec_drw_draws x y h
  refine ⟨t, hexec, fun hx hy => ?_⟩
  have hcovers := ht.spriteCovers_eq hx hy
  have hbase : t.base = s.base := congrArg BitVec.toNat (ht.writes.same.index (by decide))
  obtain ⟨u, hexec', hu⟩ := exec_drw_draws x y (hbase ▸ h)
  refine ⟨u, hexec', fun r c => ?_, hu.flag_iff.trans (exists_congr fun r => exists_congr fun c => ?_)⟩
  · rw [hu.pixel, ht.pixel, hcovers, Bool.xor_assoc, Bool.xor_self, Bool.xor_false]
  · rw [hcovers, ht.pixel, and_comm]
    cases s.pixel r c <;> simp

/-- Reset with every pixel set, I at the glyph of 0. -/
def allPixelsSet : State := { State.reset with fb := Vector.replicate 32 (BitVec.allOnes 64) }

theorem allPixelsSet_pixel (r : Fin 32) (c : Fin 64) : allPixelsSet.pixel r c = true := by
  have hrow : allPixelsSet.fb[r] = BitVec.allOnes 64 := Vector.getElem_replicate _
  rw [State.pixel, hrow, BitVec.getMsbD_allOnes]
  exact decide_eq_true c.isLt

/-- Refutes O43: with every pixel set before, the first draw of the glyph of 0 turns pixels off only and the second
turns them on again, so VF ends 0, although the glyph has set bits in the frame (log 24). -/
theorem not_secondDrawCollidesWheneverASpritePixelIsInTheFrame :
    ¬ Obligations.SecondDrawCollidesWheneverASpritePixelIsInTheFrame := by
  intro h
  obtain ⟨t, ht, hsecond⟩ := drawingTwiceRestoresTheDisplay 0 1 5 allPixelsSet (.inr (by decide))
  have hregs := instructionsWriteOnlyTheirRegisters _ _ _ ht
  have hx : (t.getV 0).toNat % 64 = (allPixelsSet.getV 0).toNat % 64 := by rw [hregs 0 (by decide)]
  have hy : (t.getV 1).toNat % 32 = (allPixelsSet.getV 1).toNat % 32 := by rw [hregs 1 (by decide)]
  obtain ⟨u, hu, -, hflag⟩ := hsecond hx hy
  obtain ⟨-, hcollides, -⟩ := h 0 1 5 allPixelsSet t u (.inr (by decide)) ht hx hy hu
  have hcovers : ∃ r c, allPixelsSet.spriteCovers 0 1 5 r c = true := ⟨0, 0, by decide⟩
  obtain ⟨r, c, -, hoff⟩ := hflag.1 (hcollides hcovers)
  exact absurd ((allPixelsSet_pixel r c).symm.trans hoff) (by decide)

end Sys2Proof.Machine
